-- ==== Sys2Proof/Word.lean ====
section
/-! DEFINITION. The words of the block: the bit-vector types the spec names a width for (spec/00_scope.md rules R5 and R7).
Every number is unsigned (R7). -/

namespace Sys2Proof

/-- W_SYM = 8 bits: a symbol, a stream byte, an output item, the IMM8 field (R5, R112). -/
abbrev Byte := BitVec 8

/-- W_REG = 32 bits: a host-visible register, a command word, bus data (R5, R33). -/
abbrev Word := BitVec 32

/-- W_FREQ = W_COUNT = 64 bits: the operand A = {ARG1, ARG0}, a loaded frequency, COUNT, TOTAL (R5, R113). -/
abbrev Quad := BitVec 64

/-- W_NFREQ = 72 bits: the frequency of a node inside the engine (R5, R40). -/
abbrev NodeFreq := BitVec 72

/-- MAX_CODE_LEN = 255 bits: the bits of one code, c_i at bit i (R5, R44). -/
abbrev CodeBits := BitVec 255

end Sys2Proof
end

