-- ==== Sys2Proof/Config.lean ====
section
/-! DEFINITION. What an implementation of the block fixes (spec/00_scope.md rule R5): the fixed sizes, and the two `OPEN`
parameters OUT_DEPTH and HUFF_BASE, which the spec says a model takes as arguments. They are two opaque constants, and a
State carries the pair it runs with (`Params`), so that a statement about every state holds for every choice of them
(notes/assumptions/2.md). -/

namespace Sys2Proof

/-- N_SYM = 256 symbols, the byte values 0..255 (R5). -/
abbrev nSym : Nat := 256

/-- N_NODES = 511, the capacity of the node arena, 2 * N_SYM - 1 (R5, R40). -/
abbrev nNodes : Nat := 511

/-- MAX_CODE_LEN = 255, the longest code the block stores and emits, in bits (R5, D17). -/
abbrev maxCodeLen : Nat := 255

/-- The `OPEN` parameters of one block (R5). The two ranges of R5 are in the types: OUT_DEPTH is 1..65535, so OUT_DEPTH - 1
is kept; HUFF_BASE is 256-byte aligned, so HUFF_BASE / 256 is kept. -/
structure Params where
  /-- OUT_DEPTH - 1 (R5, U18). -/
  outDepthLess1 : Fin 65535
  /-- HUFF_BASE / 256 (R5, U19). The spec gives the host's address no width. -/
  basePage : Nat
  deriving DecidableEq, Repr

/-- OUT_DEPTH, 1..65535, the depth of the output FIFO (R5). -/
def Params.outDepth (p : Params) : Nat := p.outDepthLess1.val + 1

/-- HUFF_BASE, the host address of the register window, a multiple of 256 (R5). -/
def Params.huffBase (p : Params) : Nat := 256 * p.basePage

/-- OUT_DEPTH - 1 of the block at hand: left open by the spec (R5, U18), so without a body. -/
opaque Config.outDepthLess1 : Fin 65535

/-- HUFF_BASE / 256 of the block at hand: left open by the spec (R5, U19), so without a body. -/
opaque Config.basePage : Nat

/-- The parameters of the block at hand. -/
def Config.params : Params := ⟨Config.outDepthLess1, Config.basePage⟩

end Sys2Proof
end

