-- ==== Sys2Proof/Syntax.lean ====
section
/-! DEFINITION. The syntax of what the host gives the block: the 11 commands of spec/opcode_table.json (one constructor of
`Instr` each), the fields of the command word format C (spec/30_encoding.md rule R111), the host accesses (R110), the
events of a run, and the registers of the window (spec/10_state.md rule R33). -/

namespace Sys2Proof

/-- The commands (R114), one constructor per row of the opcode table. The 8-bit operand of four of them is the IMM8 field
(R112); the 64-bit operand A of LOAD_SYM and DEC_START is no part of the word (R113). -/
inductive Instr where
  /-- NOP, 0x00 (R152). -/
  | nop
  /-- CLEAR, 0x01 (R153). -/
  | clear
  /-- LOAD_SYM s, 0x02 (R172). -/
  | loadSym (s : Byte)
  /-- BUILD, 0x03 (R176). -/
  | build
  /-- QUERY_CODE s, 0x04 (R178). -/
  | queryCode (s : Byte)
  /-- ENC_START, 0x10 (R201). -/
  | encStart
  /-- ENC_SYM s, 0x11 (R202). -/
  | encSym (s : Byte)
  /-- ENC_FLUSH, 0x12 (R203). -/
  | encFlush
  /-- DEC_START, 0x20 (R222). -/
  | decStart
  /-- DEC_BYTE b, 0x21 (R223). -/
  | decByte (b : Byte)
  /-- DEC_END, 0x22 (R224). -/
  | decEnd
  deriving DecidableEq, Repr

/-- The fields of a command word, format C (R111). -/
structure Fields where
  /-- bits 7:0. -/
  opcode : Byte
  /-- bits 15:8. -/
  imm8 : Byte
  /-- bits 31:16, reserved. -/
  rsv : BitVec 16
  deriving DecidableEq, Repr

/-- A host access (R81, R110): a direction, an address of the host's address space, a size in bytes and, for a write, the
32 bits of write data. The byte offset off[7:0] of R110 is the address less HUFF_BASE (R8, R80). -/
inductive Access where
  | read (addr size : Nat)
  | write (addr size : Nat) (data : Word)
  deriving DecidableEq, Repr

/-- What can happen next to the block: one engine step if one is enabled (R148 to R150), one host access (R140, R141), or
a change of the `rst` input (R300). A list of them is one interleaving of the agents of R6. -/
inductive Event where
  | engine
  | host (a : Access)
  | rst (level : Bool)
  deriving DecidableEq, Repr

/-- The registers of the window (R33). `reserved` stands for the offsets 0x68..0xFC. -/
inductive Reg where
  | id | config | ctrl | status | cmd | arg0 | arg1 | outData | outLevel
  | countLo | countHi | totalLo | totalHi | intPend | intEn | errCmd | accState | codeLen
  | codeBits (k : Fin 8)
  | reserved
  deriving DecidableEq, Repr

end Sys2Proof
end

