-- ==== Sys2Proof/WellFormed.lean ====
section
/-! DEFINITION. What is well formed: the fields of a legal command word (spec/30_encoding.md rules R111, R115 and R116) and
the instructions. The types already admit only encodable operands; `Fields.wf` is the check that can refuse. -/

namespace Sys2Proof

/-- The opcodes of the commands that take IMM8 (R115). -/
def takesImm8 (op : Byte) : Bool := op ∈ [0x02#8, 0x04#8, 0x11#8, 0x21#8]

/-- The opcodes of the commands whose IMM8 must be 0 (R115). -/
def takesNoImm8 (op : Byte) : Bool := op ∈ [0x00#8, 0x01#8, 0x03#8, 0x10#8, 0x12#8, 0x20#8, 0x22#8]

/-- The fields of a legal command word: RSV is 0, the opcode is one of R114's, and IMM8 is 0 where the command takes none
(R111, R115). -/
def Fields.wf (f : Fields) : Bool :=
  f.rsv == 0 && (takesImm8 f.opcode || (takesNoImm8 f.opcode && f.imm8 == 0))

/-- Every 8-bit operand is a symbol or stream byte 0..255 (R112). The operand's type says as much, so this holds of every
instruction; it is here so that statements can name the condition. -/
def Instr.wf : Instr → Bool
  | .nop => true
  | .clear => true
  | .loadSym s => decide (s.toNat < nSym)
  | .build => true
  | .queryCode s => decide (s.toNat < nSym)
  | .encStart => true
  | .encSym s => decide (s.toNat < nSym)
  | .encFlush => true
  | .decStart => true
  | .decByte b => decide (b.toNat < nSym)
  | .decEnd => true

end Sys2Proof
end

