-- ==== Sys2Proof/Decode.lean ====
section
/-! DEFINITION. Decoding and encoding of command words (spec/30_encoding.md rules R111 to R116), the byte order of a word
(spec/20_memory.md rule R83), and the register map's offsets (spec/10_state.md rule R33). Decoding is total and refuses by
name; every refusal of a 32-bit word is the one outcome ILLEGAL of R115. -/

namespace Sys2Proof

/-- Why a word is ILLEGAL (R115, R116). -/
inductive Illegal where
  /-- w[31:16] is not 0. -/
  | reservedBits
  /-- the opcode is none of R114's. -/
  | reservedOpcode
  /-- IMM8 is not 0 in a command that takes none. -/
  | immNotZero
  /-- fewer than four bytes: not a command word at all (raised by `decodeBytes` only). -/
  | shortWord
  deriving DecidableEq, Repr

/-- The fields of a word (R111). -/
def split (w : Word) : Fields := ⟨w.extractLsb' 0 8, w.extractLsb' 8 8, w.extractLsb' 16 16⟩

/-- The word of the fields (R111). -/
def join (f : Fields) : Word := f.rsv ++ f.imm8 ++ f.opcode

/-- A command that takes no IMM8: legal only with IMM8 = 0 (R115). -/
def noImm (v : Byte) (i : Instr) : Except Illegal Instr :=
  if v = 0 then .ok i else .error .immNotZero

/-- The command of an opcode and its IMM8 (R114, R115). -/
def decodeOp (op v : Byte) : Except Illegal Instr :=
  match op.toNat with
  | 0x00 => noImm v .nop
  | 0x01 => noImm v .clear
  | 0x02 => .ok (.loadSym v)
  | 0x03 => noImm v .build
  | 0x04 => .ok (.queryCode v)
  | 0x10 => noImm v .encStart
  | 0x11 => .ok (.encSym v)
  | 0x12 => noImm v .encFlush
  | 0x20 => noImm v .decStart
  | 0x21 => .ok (.decByte v)
  | 0x22 => noImm v .decEnd
  | _ => .error .reservedOpcode

/-- `Decode(w)` of R115, a total function on every 32-bit word; it does not depend on MODE. -/
def decode (w : Word) : Except Illegal Instr :=
  if (split w).rsv ≠ 0 then .error .reservedBits else decodeOp (split w).opcode (split w).imm8

/-- The fields of an instruction's word: R114's opcode column, its operand in IMM8, RSV = 0. -/
def fieldsOf : Instr → Fields
  | .nop => ⟨0x00, 0, 0⟩
  | .clear => ⟨0x01, 0, 0⟩
  | .loadSym s => ⟨0x02, s, 0⟩
  | .build => ⟨0x03, 0, 0⟩
  | .queryCode s => ⟨0x04, s, 0⟩
  | .encStart => ⟨0x10, 0, 0⟩
  | .encSym s => ⟨0x11, s, 0⟩
  | .encFlush => ⟨0x12, 0, 0⟩
  | .decStart => ⟨0x20, 0, 0⟩
  | .decByte b => ⟨0x21, b, 0⟩
  | .decEnd => ⟨0x22, 0, 0⟩

/-- The command word of an instruction (R111, R114). -/
def encode (i : Instr) : Word := join (fieldsOf i)

/-- Byte k of a register is bits [8k+7:8k] (R83): the four bytes of a word, lowest address first. -/
def bytesOf (w : Word) : List Byte :=
  [w.extractLsb' 0 8, w.extractLsb' 8 8, w.extractLsb' 16 8, w.extractLsb' 24 8]

/-- The word of four bytes, lowest address first (R83). -/
def wordOf (b0 b1 b2 b3 : Byte) : Word := b3 ++ b2 ++ b1 ++ b0

/-- Decoding of bytes, total: the first four are one command word, the rest is handed back. -/
def decodeBytes : List Byte → Except Illegal (Instr × List Byte)
  | b0 :: b1 :: b2 :: b3 :: rest =>
    match decode (wordOf b0 b1 b2 b3) with
    | .ok i => .ok (i, rest)
    | .error e => .error e
  | _ => .error .shortWord

/-- The word whose low `nbits` bits are those of `w` and whose other bits are 0. -/
def tableWord (nbits w : Nat) : Word := BitVec.ofNat 32 (w % 2 ^ nbits)

/-- What the decoder reads from the word of a row of the opcode table: the word's bytes as the hardware stores them (R83),
given to `decodeBytes`. -/
def decodeTableWord (nbits w : Nat) : Option Instr :=
  match decodeBytes (bytesOf (tableWord nbits w)) with
  | .ok (i, _) => some i
  | .error _ => none

/-- The register at a byte offset of the window: off[7:2] selects one of the 64 word slots (R33, R110). -/
def regAt (off : BitVec 8) : Reg :=
  match off.toNat / 4 with
  | 0 => .id
  | 1 => .config
  | 2 => .ctrl
  | 3 => .status
  | 4 => .cmd
  | 5 => .arg0
  | 6 => .arg1
  | 7 => .outData
  | 8 => .outLevel
  | 9 => .countLo
  | 10 => .countHi
  | 11 => .totalLo
  | 12 => .totalHi
  | 13 => .intPend
  | 14 => .intEn
  | 15 => .errCmd
  | 16 => .accState
  | 17 => .codeLen
  | 18 => .codeBits 0
  | 19 => .codeBits 1
  | 20 => .codeBits 2
  | 21 => .codeBits 3
  | 22 => .codeBits 4
  | 23 => .codeBits 5
  | 24 => .codeBits 6
  | 25 => .codeBits 7
  | _ => .reserved

/-- off(NAME): the byte offset of a register (R33, R119). For `reserved` the first such offset, 0x68. -/
def offsetOf : Reg → Nat
  | .id => 0x00
  | .config => 0x04
  | .ctrl => 0x08
  | .status => 0x0C
  | .cmd => 0x10
  | .arg0 => 0x14
  | .arg1 => 0x18
  | .outData => 0x1C
  | .outLevel => 0x20
  | .countLo => 0x24
  | .countHi => 0x28
  | .totalLo => 0x2C
  | .totalHi => 0x30
  | .intPend => 0x34
  | .intEn => 0x38
  | .errCmd => 0x3C
  | .accState => 0x40
  | .codeLen => 0x44
  | .codeBits k => 0x48 + 4 * k.val
  | .reserved => 0x68

end Sys2Proof
end

