-- ==== Sys2Proof/Machine/State.lean ====
section
/-! DEFINITION. The state of the block (spec/10_state.md), as plain data. `Engine` is the *engine state* of rule R53: what a
command changes only at its E-DONE, all at once, or at error entry. `State` adds the *live state* of R53, the parameters of
R5, and the block's ports (R81) with what will happen at them. -/

namespace Sys2Proof.Machine

/-- MODE (R30): exactly the five values ever held, so 4, 5 and 6 are never held. -/
inductive Mode where
  /-- a table is being loaded. -/
  | load
  /-- the tree and the code table are valid, no pass running. -/
  | built
  /-- an encode pass is open. -/
  | enc
  /-- a decode pass is open. -/
  | dec
  /-- an error was taken. -/
  | error
  deriving DecidableEq, Repr

/-- ERR_CODE (R270): exactly the codes 0 to 7, so 8 to 15 are never produced. -/
inductive ErrCode where
  /-- 0, NONE. -/
  | noError
  /-- 1. -/
  | illegalCmd
  /-- 2. -/
  | badState
  /-- 3. -/
  | dupSymbol
  /-- 4. -/
  | symAbsent
  /-- 5. -/
  | countOverflow
  /-- 6. -/
  | formatEmpty
  /-- 7. -/
  | truncated
  deriving DecidableEq, Repr

/-- KIND of an arena entry (R40). -/
inductive Kind where
  | free | leaf | internal
  deriving DecidableEq, Repr

/-- A 9-bit node index, 0..510 (R40). -/
abbrev NodeIdx := Fin nNodes

/-- An entry of the node arena (R40). LEFT and RIGHT are meaningful only for INTERNAL. -/
structure Node where
  kind : Kind
  freq : NodeFreq
  data : Byte
  left : NodeIdx
  right : NodeIdx
  deriving DecidableEq, Repr

/-- A FREE entry: all fields zero (R40, R56). -/
def Node.free : Node := ⟨.free, 0, 0, 0, 0⟩

/-- One entry of the code table (R44): CVALID, CLEN, CBITS of a symbol. -/
structure Code where
  valid : Bool
  len : BitVec 8
  bits : CodeBits
  deriving DecidableEq, Repr

/-- The entry of a symbol without a code: all zero (R44, R177). -/
def Code.absent : Code := ⟨false, 0, 0⟩

/-- The engine state (R53). Two elements are held in one canonical form: the entries of the node arena in use are listed in
`node`, in index order, so NODE[k] is FREE beyond them and NNODES is the list's length (R40, notes/assumptions/6.md). -/
structure Engine where
  /-- MODE (R30). -/
  mode : Mode
  /-- NODE[0..NNODES-1] (R40). -/
  node : List Node
  /-- PL, the priority list, lowest key first (R41). -/
  pl : List NodeIdx
  /-- ROOT (R42). -/
  root : Option NodeIdx
  /-- PRESENT[0..255], bit s for symbol s (R43). -/
  present : BitVec 256
  /-- NSYM (R43). -/
  nsym : BitVec 9
  /-- The code table, entry s for symbol s (R44). -/
  code : List Code
  /-- ACC (R45). -/
  acc : Byte
  /-- ACC_CNT (R45). -/
  accCnt : BitVec 3
  /-- POS (R46). -/
  pos : Option NodeIdx
  /-- COUNT (R47). -/
  count : Quad
  /-- TOTAL (R47). -/
  total : Quad
  /-- ERR_CODE (R49). -/
  errCode : ErrCode
  /-- ERR_CMD (R49). -/
  errCmd : Word
  /-- QSYM (R52). -/
  qsym : Byte
  /-- QVALID (R52). -/
  qvalid : Bool
  /-- QLEN (R52). -/
  qlen : BitVec 9
  /-- QBITS (R52). -/
  qbits : BitVec 256
  deriving DecidableEq, Repr

/-- The reset value of every engine-state element (R56). -/
def Engine.reset : Engine where
  mode := .load
  node := []
  pl := []
  root := none
  present := 0
  nsym := 0
  code := List.replicate nSym Code.absent
  acc := 0
  accCnt := 0
  pos := none
  count := 0
  total := 0
  errCode := .noError
  errCmd := 0
  qsym := 0
  qvalid := false
  qlen := 0
  qbits := 0

/-- A latched command (R51): its word, and the operand sampled at the CMD write. -/
structure Command where
  word : Word
  operand : Quad
  deriving DecidableEq, Repr

/-- `count` equal output items in a row. DEC_START on a one-symbol tree emits up to 2^64 - 1 of them (R222), so the output
list L of R51 is kept as runs; `itemsOf` in Machine/Operands.lean is the list itself (notes/assumptions/7.md). -/
structure Run where
  item : Byte
  count : Nat
  deriving DecidableEq, Repr

/-- PENDING after E-EXEC (R51): the computed next engine state S' and the remaining output list L. -/
structure Pending where
  next : Engine
  items : List Run
  deriving DecidableEq, Repr

/-- The whole machine: the block (R30 to R52, R53), its parameters (R5), its ports (R81, R300) and what comes next at
them (R6, R91). -/
structure State where
  /-- The committed engine state (R53). -/
  engine : Engine
  /-- BUSY (R51). -/
  busy : Bool
  /-- CUR (R51). -/
  cur : Option Command
  /-- PENDING (R51). -/
  pending : Option Pending
  /-- OUT, the output FIFO, head first (R48). -/
  out : List Byte
  /-- OVERRUN (R49). -/
  overrun : Bool
  /-- INT_PEND_DONE (R50). -/
  intDone : Bool
  /-- INT_PEND_ERR (R50). -/
  intErr : Bool
  /-- INT_EN (R50). -/
  intEn : BitVec 3
  /-- ARG0 (R32). -/
  arg0 : Word
  /-- ARG1 (R32). -/
  arg1 : Word
  /-- OUT_DEPTH and HUFF_BASE (R5): fixed for a machine, changed by no step, reset included. -/
  params : Params
  /-- The level of the `rst` input (R81, R300). -/
  rst : Bool
  /-- The read data of the bus port (R81): what the last accepted host read returned. -/
  rdata : Word
  /-- The model's own: what happens next at the block, first first; when it is empty the engine moves
  (R6, R91, notes/assumptions/1.md). -/
  agenda : List Event
  deriving DecidableEq, Repr

/-- The state right after reset: every element at its value of R56. The parameters are the block's, whatever they are; the
ports are at rest and nothing is scheduled (notes/assumptions/11.md). -/
def State.reset : State where
  engine := Engine.reset
  busy := false
  cur := none
  pending := none
  out := []
  overrun := false
  intDone := false
  intErr := false
  intEn := 0
  arg0 := 0
  arg1 := 0
  params := Config.params
  rst := false
  rdata := 0
  agenda := []

/-- Why a step stops. The block's own errors (R270) are no faults: they are error entry, a next state. -/
inductive Fault where
  /-- Raised by BUILD's code generation, DEC_START and DEC_BYTE where a rule would read a field of NONE or of a FREE entry.
  "Reading a field of NONE is never done by any rule" (R10): no reachable state raises it. Safe. -/
  | noNode
  /-- Raised by DEC_BYTE where WalkBit would be called with POS not at an INTERNAL node, where R221 does not define it. No
  reachable state raises it (R226). Safe. -/
  | cursorNotInternal
  /-- Raised by LOAD_SYM and BUILD where a node would be written beyond NODE[510]. No reachable state raises it (R176). Safe. -/
  | arenaFull
  /-- Raised by BUILD where a sum of frequencies would not fit 72 bits. No reachable state raises it (R175). Safe. -/
  | freqOverflow
  /-- Raised by BUILD where a path would be longer than 255 bits. No reachable state raises it (R177, R180). Safe. -/
  | codeTooLong
  /-- Raised by a host access outside the 256-byte window at HUFF_BASE: the spec gives no such address to the block
  (R80, notes/assumptions/3.md). Safe. -/
  | outsideWindow
  deriving DecidableEq, Repr

/-- Why an instruction is refused. -/
inductive Refusal where
  /-- Raised by `exec` for an instruction without a meaning in this model; no arm of this model raises it. Safe. -/
  | notModelled (mnemonic : String)
  deriving DecidableEq, Repr

/-- What a command's rule computes from the engine state (R151): Ok(S', L), Err(code), or, in no reachable state, a fault. -/
inductive Result where
  | ok (next : Engine) (items : List Run)
  | err (code : ErrCode)
  | stuck (f : Fault)
  deriving DecidableEq, Repr

/-- What a step answers. -/
abbrev Answer := Host.Outcome State Fault Refusal

end Sys2Proof.Machine
end

