-- ==== Sys2Proof/Machine/Operands.lean ====
section
/-! DEFINITION. The operand forms of the commands: the 64-bit operand A and the latched command (spec/30_encoding.md rules
R112 and R113, spec/10_state.md rule R51), reads of the arena and of the code table, bit sequences, and output lists. -/

namespace Sys2Proof.Machine

/-- `{ARG1, ARG0}` as a CMD write samples it (R113, R143). -/
def argOperand (s : State) : Quad := s.arg1 ++ s.arg0

/-- The command that is executing: the latched one (R148). Where none is latched, which E-EXEC never meets, the command a
CMD write of this instruction would latch now (notes/assumptions/9.md). -/
def latched (i : Instr) (s : State) : Command := s.cur.getD ⟨encode i, argOperand s⟩

/-- `zext_72(A)` (R113). -/
def leafFreq (a : Quad) : NodeFreq := a.setWidth 72

/-- NODE[k] of the arena whose entries in use are listed (R40). -/
def nodeAt (nodes : List Node) (k : NodeIdx) : Node := (nodes[k.val]?).getD Node.free

/-- NNODES, the number of entries in use (R40). -/
def Engine.nnodes (e : Engine) : Nat := e.node.length

/-- PRESENT[s] (R43). -/
def Engine.has (e : Engine) (s : Byte) : Bool := e.present.getLsbD s.toNat

/-- CVALID[s], CLEN[s], CBITS[s] (R44). -/
def codeAt (t : List Code) (s : Byte) : Code := (t[s.toNat]?).getD Code.absent

/-- The code c_0 .. c_{L-1} of an entry, c_0 first (R44). -/
def Code.path (c : Code) : List Bool := (List.range c.len.toNat).map c.bits.getLsbD

/-- A path as CBITS: element i at bit i, the bits beyond it 0 (R44, R177). -/
def pathBits (path : List Bool) : CodeBits := (BitVec.ofBoolListLE path).setWidth maxCodeLen

/-- The bits v[0], v[1], .., v[7] of a stream byte, in the order they are consumed (R220). -/
def byteBits (v : Byte) : List Bool := (List.range 8).map v.getLsbD

/-- The output list L that a list of runs stands for (R51). -/
def itemsOf : List Run → List Byte
  | [] => []
  | r :: rest => List.replicate r.count r.item ++ itemsOf rest

/-- An output list as runs of one. -/
def runsOf (l : List Byte) : List Run := l.map fun b => ⟨b, 1⟩

/-- L[0] and L[1..) of a list of runs (R149); `none` for the empty list. -/
def popItem : List Run → Option (Byte × List Run)
  | [] => none
  | ⟨_, 0⟩ :: rest => popItem rest
  | ⟨b, 1⟩ :: rest => some (b, rest)
  | ⟨b, n + 2⟩ :: rest => some (b, ⟨b, n + 1⟩ :: rest)

end Sys2Proof.Machine
end

