-- ==== Sys2Proof/Machine/Flags.lean ====
section
/-! DEFINITION. Every flag and every computed word the host can read: STATUS, INT_PEND, the `irq` output, CONFIG, CODE_LEN,
CODE_BITSk, ACC_STATE (spec/10_state.md rules R33 to R39, spec/60_exceptions.md rules R279 and R280). -/

namespace Sys2Proof.Machine

/-- The value of MODE as STATUS.MODE shows it (R30). -/
def Mode.bits : Mode → BitVec 3
  | .load => 0
  | .built => 1
  | .enc => 2
  | .dec => 3
  | .error => 7

/-- The value of ERR_CODE as STATUS.ERR_CODE shows it (R270). -/
def ErrCode.bits : ErrCode → BitVec 4
  | .noError => 0
  | .illegalCmd => 1
  | .badState => 2
  | .dupSymbol => 3
  | .symAbsent => 4
  | .countOverflow => 5
  | .formatEmpty => 6
  | .truncated => 7

/-- STATUS.DEC_DONE: MODE = DEC and COUNT = TOTAL (R34). -/
def decDone (e : Engine) : Bool := e.mode == .dec && e.count == e.total

/-- STATUS (R33, R34): reserved 31:25, NSYM 24:16, reserved 15:12, ERR_CODE 11:8, reserved 7:6, DEC_DONE 5, OVERRUN 4,
MODE 3:1, BUSY 0. -/
def statusWord (s : State) : Word :=
  0#7 ++ s.engine.nsym ++ 0#4 ++ s.engine.errCode.bits ++ 0#2 ++ BitVec.ofBool (decDone s.engine) ++
    BitVec.ofBool s.overrun ++ s.engine.mode.bits ++ BitVec.ofBool s.busy

/-- ID, the constant 0x48554646 (R35). -/
def idWord : Word := 0x48554646

/-- CONFIG: FREQ_BYTES = 8 in 31:24, OUT_DEPTH in 23:8, MAX_CODE_LEN = 255 in 7:0 (R33, R35). -/
def configWord (p : Params) : Word := 0x08#8 ++ BitVec.ofNat 16 p.outDepth ++ 0xFF#8

/-- INT_PEND.OUT_NONEMPTY: a level, not stored (R36, R279). -/
def outNonempty (s : State) : Bool := !s.out.isEmpty

/-- INT_PEND[2:0]: OUT_NONEMPTY, ERR, DONE (R33, R36). -/
def intPend (s : State) : BitVec 3 :=
  BitVec.ofBool (outNonempty s) ++ BitVec.ofBool s.intErr ++ BitVec.ofBool s.intDone

/-- The `irq` output (R280). -/
def irq (s : State) : Bool :=
  (s.intDone && s.intEn.getLsbD 0) || (s.intErr && s.intEn.getLsbD 1) || (outNonempty s && s.intEn.getLsbD 2)

/-- ACC_STATE: {21'b0, ACC_CNT, ACC} (R38). -/
def accState (e : Engine) : Word := 0#21 ++ e.accCnt ++ e.acc

/-- CODE_LEN: {QVALID, 7'b0, QSYM, 7'b0, QLEN} (R39). -/
def codeLenWord (e : Engine) : Word := BitVec.ofBool e.qvalid ++ 0#7 ++ e.qsym ++ 0#7 ++ e.qlen

/-- CODE_BITSk: QBITS[32k+31:32k] (R39). -/
def codeBitsWord (e : Engine) (k : Fin 8) : Word := e.qbits.extractLsb' (32 * k.val) 32

/-- OUT_DATA: {1, 23'b0, OUT[0]}, or 0 when OUT is empty (R37). -/
def outDataWord (s : State) : Word :=
  match s.out with
  | [] => 0
  | b :: _ => 1#1 ++ 0#23 ++ b

end Sys2Proof.Machine
end

