-- ==== Sys2Proof/Machine/Ops.lean ====
section
/-! DEFINITION. The operations every command shares: the mode-legality table (spec/40_control.md rule R151), error entry and
the reset (spec/60_exceptions.md rule R272, spec/70_reset_and_hazards.md rule R301), and how a command's rule becomes the
E-EXEC step's effect (R148). -/

namespace Sys2Proof.Machine

/-- Modes(op), the mode-legality table of R151. A word other than CLEAR that meets MODE = ERROR is discarded at the CMD
write (R143, R275), so the ERROR column here is met by CLEAR alone (notes/assumptions/13.md). -/
def legalIn : Instr → Mode → Bool
  | .nop, m => m != .error
  | .clear, _ => true
  | .loadSym _, m => m == .load
  | .build, m => m == .load
  | .queryCode _, m => m == .built || m == .enc || m == .dec
  | .encStart, m => m == .built
  | .encSym _, m => m == .enc
  | .encFlush, m => m == .enc
  | .decStart, m => m == .built
  | .decByte _, m => m == .dec
  | .decEnd, m => m == .dec

/-- ErrorEntry(code, w) with E-EXEC's `CUR <- NONE ; BUSY <- 0` (R148, R272): taking an error. Nothing else changes. -/
def errorEntry (code : ErrCode) (w : Word) (s : State) : State :=
  { s with
    engine := { s.engine with errCode := code, errCmd := w, mode := .error }
    intErr := true
    cur := none
    busy := false }

/-- The engine state CLEAR leaves, the return from an error (R153, R277): every engine-state element at its reset value. -/
def clearedEngine : Engine := Engine.reset

/-- The reset of R301, by `rst` or CTRL.SOFT_RESET: every element of R56 at its reset value, at once, any latched command
aborted. The parameters, the bus port and what comes next at the ports are no elements of R56. -/
def resetBlock (s : State) : State :=
  { State.reset with params := s.params, rst := s.rst, rdata := s.rdata, agenda := s.agenda }

/-- E-EXEC's two outcomes of Exec (R148): error entry, or PENDING <- (S', L). -/
def settle (c : Command) (r : Result) (s : State) : Answer :=
  match r with
  | .ok next items => .next { s with pending := some ⟨next, items⟩ }
  | .err code => .next (errorEntry code c.word s)
  | .stuck f => .fault f

/-- Exec of a decoded command (R151) inside E-EXEC (R148): the mode check, then the command's rule on the committed engine
state and the sampled operand. -/
def runCommand (i : Instr) (rule : Engine → Quad → Result) (s : State) : Answer :=
  if legalIn i s.engine.mode then settle (latched i s) (rule s.engine (latched i s).operand) s
  else .next (errorEntry .badState (latched i s).word s)

end Sys2Proof.Machine
end

