-- ==== Sys2Proof/Machine/Bus.lean ====
section
/-! DEFINITION. Host accesses to the register window: the block's loads and stores (spec/40_control.md rules R140 to R147,
spec/20_memory.md rules R80 to R89), and the `rst` input (spec/70_reset_and_hazards.md rule R300). -/

namespace Sys2Proof.Machine

/-- off[7:0] of a host address, where the address is in the window (R8, R80). -/
def windowOffset (p : Params) (addr : Nat) : Option (BitVec 8) :=
  if p.huffBase ≤ addr ∧ addr < p.huffBase + 256 then some (BitVec.ofNat 8 (addr - p.huffBase)) else none

/-- An access acts only when its size is 4 and off[1:0] = 0 (R86, R110). -/
def acts (off : BitVec 8) (size : Nat) : Bool := size == 4 && off.extractLsb' 0 2 == 0

/-- The value of a register as a read returns it (R33 to R39, R140). Write-only and reserved registers read 0. -/
def regValue (s : State) : Reg → Word
  | .id => idWord
  | .config => configWord s.params
  | .ctrl => 0
  | .status => statusWord s
  | .cmd => 0
  | .arg0 => s.arg0
  | .arg1 => s.arg1
  | .outData => outDataWord s
  | .outLevel => BitVec.ofNat 32 s.out.length
  | .countLo => s.engine.count.extractLsb' 0 32
  | .countHi => s.engine.count.extractLsb' 32 32
  | .totalLo => s.engine.total.extractLsb' 0 32
  | .totalHi => s.engine.total.extractLsb' 32 32
  | .intPend => (intPend s).setWidth 32
  | .intEn => s.intEn.setWidth 32
  | .errCmd => s.engine.errCmd
  | .accState => accState s.engine
  | .codeLen => codeLenWord s.engine
  | .codeBits k => codeBitsWord s.engine k
  | .reserved => 0

/-- The side effect of a read: a read of OUT_DATA pops an item, every other read has none (R140, R144). -/
def popOut (s : State) : Reg → State
  | .outData => { s with out := s.out.tail }
  | _ => s

/-- A host read (R140): one that does not act returns 0 and has no side effect (R86). -/
def hostRead (off : BitVec 8) (size : Nat) (s : State) : State :=
  if acts off size then { popOut s (regAt off) with rdata := regValue s (regAt off) } else { s with rdata := 0 }

/-- A CMD write (R143): dropped with OVERRUN while BUSY (R276), discarded in MODE = ERROR unless it is CLEAR's word (R275),
else latched with the operand sampled now. -/
def writeCmd (w : Word) (s : State) : State :=
  if s.busy then { s with overrun := true, intErr := true }
  else if s.engine.mode = .error ∧ w ≠ encode .clear then s
  else { s with cur := some ⟨w, argOperand s⟩, busy := true }

/-- An INT_PEND write, write 1 to clear (R145). -/
def writeIntPend (v : Word) (s : State) : State :=
  { s with intDone := s.intDone && !v.getLsbD 0, intErr := s.intErr && !v.getLsbD 1 }

/-- A CTRL write: SOFT_RESET (R146). -/
def writeCtrl (v : Word) (s : State) : State := if v.getLsbD 0 then resetBlock s else s

/-- The effect of an acting write on a register (R141 to R147); read-only and reserved registers ignore it (R142). -/
def regWrite (v : Word) (s : State) : Reg → State
  | .ctrl => writeCtrl v s
  | .cmd => writeCmd v s
  | .arg0 => { s with arg0 := v }
  | .arg1 => { s with arg1 := v }
  | .intPend => writeIntPend v s
  | .intEn => { s with intEn := v.extractLsb' 0 3 }
  | .id => s
  | .config => s
  | .status => s
  | .outData => s
  | .outLevel => s
  | .countLo => s
  | .countHi => s
  | .totalLo => s
  | .totalHi => s
  | .errCmd => s
  | .accState => s
  | .codeLen => s
  | .codeBits _ => s
  | .reserved => s

/-- A host write (R141): one that does not act changes nothing (R86). -/
def hostWrite (off : BitVec 8) (size : Nat) (v : Word) (s : State) : State :=
  if acts off size then regWrite v s (regAt off) else s

/-- A host access at a host address. While `rst` is asserted the block takes none (R300, notes/assumptions/4.md). An address
outside the window is not the block's. -/
def hostAccess (a : Access) (s : State) : Answer :=
  if s.rst then .next s
  else
    match a with
    | .read addr size =>
      match windowOffset s.params addr with
      | some off => .next (hostRead off size s)
      | none => .fault .outsideWindow
    | .write addr size v =>
      match windowOffset s.params addr with
      | some off => .next (hostWrite off size v s)
      | none => .fault .outsideWindow

/-- A change of the `rst` input: asserted, it resets the block (R300, R301). -/
def driveRst (level : Bool) (s : State) : State :=
  if level then resetBlock { s with rst := true } else { s with rst := false }

end Sys2Proof.Machine
end

