-- ==== Sys2Proof/Machine/Control.lean ====
section
/-! DEFINITION. The control commands NOP and CLEAR (spec/40_control.md rules R152 and R153). -/

namespace Sys2Proof.Machine

/-- Rule_NOP (R152). -/
def ruleNop (e : Engine) : Result := .ok e []

/-- NOP at E-EXEC. -/
def execNop (s : State) : Answer := runCommand .nop (fun e _ => ruleNop e) s

/-- Rule_CLEAR (R153). That CLEAR also empties OUT and clears OVERRUN at its E-DONE is in `engineDone`. -/
def ruleClear (_ : Engine) : Result := .ok clearedEngine []

/-- CLEAR at E-EXEC. -/
def execClear (s : State) : Answer := runCommand .clear (fun e _ => ruleClear e) s

end Sys2Proof.Machine
end

