-- ==== Sys2Proof/Machine/Packer.lean ====
section
/-! DEFINITION. The bit-stream packer family: ENC_START, ENC_SYM and ENC_FLUSH (spec/42_encode.md rules R200 to R203). -/

namespace Sys2Proof.Machine

/-- `v[k] <- b`. -/
def putBit (v : Byte) (k : Nat) (b : Bool) : Byte :=
  if b then v ||| BitVec.twoPow 8 k else v &&& ~~~ BitVec.twoPow 8 k

/-- PackBit(b) (R200): the new engine state and the items emitted. -/
def packBit (e : Engine) (b : Bool) : Engine × List Byte :=
  if e.accCnt = 7 then ({ e with acc := 0, accCnt := 0 }, [putBit e.acc e.accCnt.toNat b])
  else ({ e with acc := putBit e.acc e.accCnt.toNat b, accCnt := e.accCnt + 1 }, [])

/-- PackBit of every bit of a sequence, first bit first, the items in emission order. -/
def packBits (e : Engine) : List Bool → Engine × List Byte
  | [] => (e, [])
  | b :: rest =>
    match packBit e b with
    | (e', l) =>
      match packBits e' rest with
      | (e'', l') => (e'', l ++ l')

/-- Rule_ENC_START (R201). -/
def ruleEncStart (e : Engine) : Result := .ok { e with acc := 0, accCnt := 0, count := 0, mode := .enc } []

/-- ENC_START at E-EXEC. -/
def execEncStart (s : State) : Answer := runCommand .encStart (fun e _ => ruleEncStart e) s

/-- Rule_ENC_SYM (R202): SYM_ABSENT is checked before COUNT_OVERFLOW (R274). -/
def ruleEncSym (e : Engine) (s : Byte) : Result :=
  if (codeAt e.code s).valid then
    if e.count = BitVec.allOnes 64 then .err .countOverflow
    else
      match packBits e (codeAt e.code s).path with
      | (e', l) => .ok { e' with count := e.count + 1 } (runsOf l)
  else .err .symAbsent

/-- ENC_SYM s at E-EXEC. -/
def execEncSym (sym : Byte) (s : State) : Answer := runCommand (.encSym sym) (fun e _ => ruleEncSym e sym) s

/-- Rule_ENC_FLUSH (R203). -/
def ruleEncFlush (e : Engine) : Result :=
  .ok { e with acc := 0, accCnt := 0, mode := .built } (if e.accCnt = 0 then [] else [⟨e.acc, 1⟩])

/-- ENC_FLUSH at E-EXEC. -/
def execEncFlush (s : State) : Answer := runCommand .encFlush (fun e _ => ruleEncFlush e) s

end Sys2Proof.Machine
end

