-- ==== Sys2Proof/Machine/Tree.lean ====
section
/-! DEFINITION. The tree building family: the priority list, the merges, code generation, and LOAD_SYM, BUILD and QUERY_CODE
(spec/41_tree_build.md rules R170 to R178). -/

namespace Sys2Proof.Machine

/-- `Key(m) <=key Key(n)` (R9): by frequency as 72-bit numbers, then by DATA as 8-bit numbers. -/
def keyLe (m n : Node) : Bool :=
  decide (m.freq.toNat < n.freq.toNat) || (m.freq == n.freq && decide (m.data.toNat ≤ n.data.toNat))

/-- `Insert(pl, n)` (R170): before the first node whose key is not <=key that of n, so after any equal key (R171). -/
def insert (nodes : List Node) : List NodeIdx → NodeIdx → List NodeIdx
  | [], n => [n]
  | x :: rest, n =>
    if keyLe (nodeAt nodes x) (nodeAt nodes n) then x :: insert nodes rest n else n :: x :: rest

/-- NODE[NNODES] <- nd, where the arena has room; the index written with it. -/
def allocate (nodes : List Node) (nd : Node) : Except Fault (List Node × NodeIdx) :=
  if h : nodes.length < nNodes then .ok (nodes ++ [nd], ⟨nodes.length, h⟩) else .error .arenaFull

/-- The INTERNAL node of R175 over the nodes a (removed first) and b: FREQ their exact sum, DATA inherited from a, LEFT = a,
RIGHT = b. -/
def parentOf (nodes : List Node) (a b : NodeIdx) : Except Fault Node :=
  if (nodeAt nodes a).freq.toNat + (nodeAt nodes b).freq.toNat < 2 ^ 72 then
    .ok ⟨.internal, (nodeAt nodes a).freq + (nodeAt nodes b).freq, (nodeAt nodes a).data, a, b⟩
  else .error .freqOverflow

/-- `Merge(pl, k)` with k = NNODES (R175). A list of fewer than two nodes is left alone: the loop of R176 does not merge it. -/
def merge (nodes : List Node) (pl : List NodeIdx) : Except Fault (List Node × List NodeIdx) :=
  match pl with
  | a :: b :: rest =>
    match parentOf nodes a b with
    | .ok nd =>
      match allocate nodes nd with
      | .ok (nodes', k) => .ok (nodes', insert nodes' rest k)
      | .error f => .error f
    | .error f => .error f
  | _ => .ok (nodes, pl)

/-- The loop `while len(PL) > 1` of R176; every merge shortens the list by one, so len(PL) rounds are enough. -/
def mergeAll : Nat → List Node → List NodeIdx → Except Fault (List Node × List NodeIdx)
  | 0, nodes, pl => .ok (nodes, pl)
  | n + 1, nodes, pl =>
    if pl.length > 1 then
      match merge nodes pl with
      | .ok (nodes', pl') => mergeAll n nodes' pl'
      | .error f => .error f
    else .ok (nodes, pl)

/-- `Walk(n, path)` of R177, writing the table t; the fuel is one more than the bits the path may still take. -/
def walkCodes (nodes : List Node) : Nat → NodeIdx → List Bool → List Code → Except Fault (List Code)
  | 0, _, _, _ => .error .codeTooLong
  | fuel + 1, n, path, t =>
    match (nodeAt nodes n).kind with
    | .leaf => .ok (t.set (nodeAt nodes n).data.toNat ⟨true, BitVec.ofNat 8 path.length, pathBits path⟩)
    | .internal =>
      match walkCodes nodes fuel (nodeAt nodes n).left (path ++ [false]) t with
      | .ok t' => walkCodes nodes fuel (nodeAt nodes n).right (path ++ [true]) t'
      | .error f => .error f
    | .free => .error .noNode

/-- `CodeGen()` of R177: the whole table anew. -/
def codeGen (nodes : List Node) (root : Option NodeIdx) : Except Fault (List Code) :=
  match root with
  | none => .ok (List.replicate nSym Code.absent)
  | some r => walkCodes nodes (maxCodeLen + 1) r [] (List.replicate nSym Code.absent)

/-- ROOT after the merges: `if len(PL) = 1: PL[0] else NONE` (R176). -/
def rootOf : List NodeIdx → Option NodeIdx
  | [r] => some r
  | _ => none

/-- Rule_LOAD_SYM (R172). -/
def ruleLoadSym (e : Engine) (s : Byte) (f : Quad) : Result :=
  if e.has s then .err .dupSymbol
  else
    match allocate e.node ⟨.leaf, leafFreq f, s, 0, 0⟩ with
    | .ok (nodes, k) =>
      .ok { e with
        node := nodes
        pl := insert nodes e.pl k
        present := e.present ||| BitVec.twoPow 256 s.toNat
        nsym := e.nsym + 1 } []
    | .error x => .stuck x

/-- LOAD_SYM s at E-EXEC. -/
def execLoadSym (sym : Byte) (s : State) : Answer := runCommand (.loadSym sym) (fun e a => ruleLoadSym e sym a) s

/-- Rule_BUILD (R176). -/
def ruleBuild (e : Engine) : Result :=
  match mergeAll e.pl.length e.node e.pl with
  | .ok (nodes, pl) =>
    match codeGen nodes (rootOf pl) with
    | .ok t => .ok { e with node := nodes, root := rootOf pl, pl := [], code := t, mode := .built } []
    | .error f => .stuck f
  | .error f => .stuck f

/-- BUILD at E-EXEC. -/
def execBuild (s : State) : Answer := runCommand .build (fun e _ => ruleBuild e) s

/-- Rule_QUERY_CODE (R178). -/
def ruleQueryCode (e : Engine) (s : Byte) : Result :=
  .ok { e with
    qsym := s
    qvalid := (codeAt e.code s).valid
    qlen := (codeAt e.code s).len.setWidth 9
    qbits := (codeAt e.code s).bits.setWidth 256 } []

/-- QUERY_CODE s at E-EXEC. -/
def execQueryCode (sym : Byte) (s : State) : Answer := runCommand (.queryCode sym) (fun e _ => ruleQueryCode e sym) s

end Sys2Proof.Machine
end

