-- ==== Sys2Proof/Machine/Walker.lean ====
section
/-! DEFINITION. The tree-walk decoder family: DEC_START, DEC_BYTE and DEC_END (spec/43_decode.md rules R220 to R225). -/

namespace Sys2Proof.Machine

/-- The child a bit leads to: 0 left, 1 right (R221). -/
def childOf (nd : Node) (b : Bool) : NodeIdx := if b then nd.right else nd.left

/-- WalkBit(b) (R221): the new engine state and the items emitted. -/
def walkBit (e : Engine) (b : Bool) : Except Fault (Engine × List Byte) :=
  match e.pos with
  | none => .error .noNode
  | some p =>
    if (nodeAt e.node p).kind = .internal then
      if (nodeAt e.node (childOf (nodeAt e.node p) b)).kind = .leaf then
        .ok ({ e with count := e.count + 1, pos := e.root },
          [(nodeAt e.node (childOf (nodeAt e.node p) b)).data])
      else .ok ({ e with pos := some (childOf (nodeAt e.node p) b) }, [])
    else .error .cursorNotInternal

/-- The loop of R223 over the bits of a byte, with its stop rule `if COUNT = TOTAL: break`. -/
def walkBits (e : Engine) : List Bool → Except Fault (Engine × List Byte)
  | [] => .ok (e, [])
  | b :: rest =>
    if e.count = e.total then .ok (e, [])
    else
      match walkBit e b with
      | .ok (e', l) =>
        match walkBits e' rest with
        | .ok (e'', l') => .ok (e'', l ++ l')
        | .error f => .error f
      | .error f => .error f

/-- Rule_DEC_START (R222); the one-symbol tree emits its symbol TOTAL times here (R225). -/
def ruleDecStart (e : Engine) (t : Quad) : Result :=
  if e.nsym = 0 ∧ t ≠ 0 then .err .formatEmpty
  else if e.nsym = 1 then
    match e.root with
    | some r =>
      .ok { e with total := t, count := t, pos := e.root, mode := .dec } [⟨(nodeAt e.node r).data, t.toNat⟩]
    | none => .stuck .noNode
  else .ok { e with total := t, count := 0, pos := e.root, mode := .dec } []

/-- DEC_START at E-EXEC. -/
def execDecStart (s : State) : Answer := runCommand .decStart (fun e a => ruleDecStart e a) s

/-- Rule_DEC_BYTE (R223). -/
def ruleDecByte (e : Engine) (v : Byte) : Result :=
  match walkBits e (byteBits v) with
  | .ok (e', l) => .ok e' (runsOf l)
  | .error f => .stuck f

/-- DEC_BYTE v at E-EXEC. -/
def execDecByte (v : Byte) (s : State) : Answer := runCommand (.decByte v) (fun e _ => ruleDecByte e v) s

/-- Rule_DEC_END (R224). -/
def ruleDecEnd (e : Engine) : Result :=
  if e.count.toNat < e.total.toNat then .err .truncated else .ok { e with mode := .built } []

/-- DEC_END at E-EXEC. -/
def execDecEnd (s : State) : Answer := runCommand .decEnd (fun e _ => ruleDecEnd e) s

end Sys2Proof.Machine
end

