-- ==== Sys2Proof/Machine/Dispatch.lean ====
section
/-! DEFINITION. The meaning of each command at its E-EXEC step (spec/40_control.md rules R148 and R151). -/

namespace Sys2Proof.Machine

def exec (i : Instr) (s : State) : Host.Outcome State Fault Refusal :=
  match i with
  | .nop => Sys2Proof.Machine.execNop s
  | .clear => Sys2Proof.Machine.execClear s
  | .loadSym sym => Sys2Proof.Machine.execLoadSym sym s
  | .build => Sys2Proof.Machine.execBuild s
  | .queryCode sym => Sys2Proof.Machine.execQueryCode sym s
  | .encStart => Sys2Proof.Machine.execEncStart s
  | .encSym sym => Sys2Proof.Machine.execEncSym sym s
  | .encFlush => Sys2Proof.Machine.execEncFlush s
  | .decStart => Sys2Proof.Machine.execDecStart s
  | .decByte v => Sys2Proof.Machine.execDecByte v s
  | .decEnd => Sys2Proof.Machine.execDecEnd s

end Sys2Proof.Machine
end

