-- ==== Sys2Proof/Machine/Engine.lean ====
section
/-! DEFINITION. The three engine steps (spec/40_control.md rules R148 to R150). -/

namespace Sys2Proof.Machine

/-- E-EXEC on the latched command c (R148): Decode, then Exec of R151. -/
def engineExec (c : Command) (s : State) : Answer :=
  match decode c.word with
  | .ok i => exec i s
  | .error _ => .next (errorEntry .illegalCmd c.word s)

/-- E-PUSH (R149): OUT <- OUT ++ [b], PENDING <- (S', rest). While OUT is full the engine holds: the step changes nothing. -/
def enginePush (p : Pending) (b : Byte) (rest : List Run) (s : State) : State :=
  if s.out.length < s.params.outDepth then { s with out := s.out ++ [b], pending := some { p with items := rest } }
  else s

/-- Is the latched command CLEAR (R153)? -/
def runsClear (s : State) : Bool :=
  match s.cur with
  | some c => c.word == encode .clear
  | none => false

/-- E-DONE (R150): the engine state commits at once; CLEAR also empties OUT and clears OVERRUN (R153). -/
def engineDone (p : Pending) (s : State) : State :=
  { s with
    engine := p.next
    pending := none
    cur := none
    busy := false
    intDone := true
    out := if runsClear s then [] else s.out
    overrun := if runsClear s then false else s.overrun }

/-- The engine's move: the step that is enabled, if one is (R148 to R150). With no command latched it waits (R302); while
`rst` is asserted it runs no step (R300). -/
def engineStep (s : State) : Answer :=
  if s.rst then .next s
  else
    match s.pending with
    | some p =>
      match popItem p.items with
      | some (b, rest) => .next (enginePush p b rest s)
      | none => .next (engineDone p s)
    | none =>
      match s.cur with
      | some c => engineExec c s
      | none => .next s

end Sys2Proof.Machine
end

