-- ==== Sys2Proof/Machine/Step.lean ====
section
/-! DEFINITION. One step of the machine, and the state in which the next step runs a given command word. -/

namespace Sys2Proof.Machine

/-- One step: the next event of the agenda, or the engine's move where none is listed (R6, R91, notes/assumptions/1.md). -/
def step (s : State) : Host.Outcome State Fault Refusal :=
  match s.agenda with
  | [] => engineStep s
  | .engine :: rest => engineStep { s with agenda := rest }
  | .host a :: rest => hostAccess a { s with agenda := rest }
  | .rst level :: rest => .next (driveRst level { s with agenda := rest })

/-- The agenda with the engine's move first. -/
def engineFirst (agenda : List Event) : List Event :=
  match agenda with
  | [] => []
  | _ => .engine :: agenda

/-- The block "fetches" from its command latch: s with the word latched as a CMD write latches it (R143), its operand sampled
from ARG0 and ARG1, nothing computed yet, `rst` released and the engine to move (notes/assumptions/10.md). -/
def State.withFetchWord (s : State) (nbits w : Nat) : State :=
  { s with
    cur := some ⟨tableWord nbits w, argOperand s⟩
    busy := true
    pending := none
    rst := false
    agenda := engineFirst s.agenda }

end Sys2Proof.Machine
end

