-- ==== Sys2Proof/Machine/Pass.lean ====
section
/-! DEFINITION. Exec of spec/40_control.md rule R151 as the pure function of (S, command, operand) that R148 says it is, and
sequences of commands on the engine state, each completing before the next is issued (spec/20_memory.md rule R91). The host
procedures and the pass properties of the spec are stated over these sequences. -/

namespace Sys2Proof.Machine

/-- Rule_op(S, v, a) (R151). -/
def ruleOf (i : Instr) (e : Engine) (a : Quad) : Result :=
  match i with
  | .nop => ruleNop e
  | .clear => ruleClear e
  | .loadSym s => ruleLoadSym e s a
  | .build => ruleBuild e
  | .queryCode s => ruleQueryCode e s
  | .encStart => ruleEncStart e
  | .encSym s => ruleEncSym e s
  | .encFlush => ruleEncFlush e
  | .decStart => ruleDecStart e a
  | .decByte v => ruleDecByte e v
  | .decEnd => ruleDecEnd e

/-- Exec of a decoded command (R151): the mode check, then the command's rule. -/
def execCommand (e : Engine) (i : Instr) (a : Quad) : Result :=
  if legalIn i e.mode then ruleOf i e a else .err .badState

/-- A command with the operand its CMD write samples. -/
structure Issued where
  instr : Instr
  operand : Quad
  deriving DecidableEq, Repr

/-- Commands run one after another, each to completion: the engine state after the last, and every item emitted, in order.
`none` where one does not succeed. -/
def runPass (e : Engine) : List Issued → Option (Engine × List Byte)
  | [] => some (e, [])
  | c :: rest =>
    match execCommand e c.instr c.operand with
    | .ok e' items =>
      match runPass e' rest with
      | some (e'', l) => some (e'', itemsOf items ++ l)
      | none => none
    | .err _ => none
    | .stuck _ => none

/-- A command that takes no operand (R113): the operand here is never read, and a listing writes none (R120). -/
def plain (i : Instr) : Issued := ⟨i, 0⟩

/-- `LOADF s, f` for each pair, in order (R120). -/
def loadAll (table : List (Byte × Quad)) : List Issued := table.map fun p => ⟨.loadSym p.1, p.2⟩

/-- An encode pass over a byte sequence: ENC_START, one ENC_SYM a byte, ENC_FLUSH (R205, R251). -/
def encodePass (bytes : List Byte) : List Issued :=
  plain .encStart :: (bytes.map fun b => plain (.encSym b)) ++ [plain .encFlush]

/-- A decode pass: DEC_START t, one DEC_BYTE a byte, DEC_END (R252). -/
def decodePass (t : Quad) (bytes : List Byte) : List Issued :=
  ⟨.decStart, t⟩ :: (bytes.map fun b => plain (.decByte b)) ++ [plain .decEnd]

end Sys2Proof.Machine
end

