-- ==== Sys2Proof/Machine/Artifact.lean ====
section
/-! DEFINITION. The compressed artifact and the host procedures (spec/44_artifact_format.md rules R250 to R255): the file the
block's contract is stated over. The host writes and parses it; the block sees only the commands. -/

namespace Sys2Proof.Machine

/-- The header of a file (R250): the entries in file order, and total_char_count. -/
structure Header where
  entries : List (Byte × Quad)
  total : Quad
  deriving DecidableEq, Repr

/-- The bytes of a number, least significant first (R250). -/
def leBytes : Nat → Nat → List Byte
  | 0, _ => []
  | n + 1, v => BitVec.ofNat 8 v :: leBytes n (v / 256)

/-- The number of bytes, least significant first (R250). -/
def leValue : List Byte → Nat
  | [] => 0
  | b :: rest => b.toNat + 256 * leValue rest

/-- The header's bytes (R250): symbol_count in 2, each entry in 1 + 8, total_char_count in 8. -/
def headerBytes (h : Header) : List Byte :=
  leBytes 2 h.entries.length ++ h.entries.flatMap (fun p => p.1 :: leBytes 8 p.2.toNat) ++ leBytes 8 h.total.toNat

/-- The entries at the head of a byte sequence, n of them (R250). -/
def parseEntries : Nat → List Byte → List (Byte × Quad)
  | 0, _ => []
  | n + 1, bytes =>
    match bytes with
    | [] => []
    | s :: rest => (s, BitVec.ofNat 64 (leValue (rest.take 8))) :: parseEntries n (rest.drop 8)

/-- Why the host refuses a file: FormatError, by cause (R253). -/
inductive FormatError where
  /-- shorter than 2 bytes. -/
  | noCount
  /-- symbol_count > 256. -/
  | tooManySymbols
  /-- shorter than 2 + 9 * symbol_count + 8 bytes. -/
  | shortHeader
  deriving DecidableEq, Repr

/-- Parsing of a file (R250, R253): its header and its packed stream. -/
def parseFile (file : List Byte) : Except FormatError (Header × List Byte) :=
  let n := leValue (file.take 2)
  if file.length < 2 then .error .noCount
  else if 256 < n then .error .tooManySymbols
  else if file.length < 2 + 9 * n + 8 then .error .shortHeader
  else
    .ok (⟨parseEntries n (file.drop 2), BitVec.ofNat 64 (leValue ((file.drop (2 + 9 * n)).take 8))⟩,
      file.drop (2 + 9 * n + 8))

/-- The symbols 0..255 in ascending order. -/
def allSymbols : List Byte := (List.range nSym).map fun k => BitVec.ofNat 8 k

/-- The FrequencyTable of a byte sequence: symbol and count for every symbol with count > 0, ascending (R251). -/
def frequencies (bytes : List Byte) : List (Byte × Quad) :=
  (allSymbols.filter fun s => decide (s ∈ bytes)).map fun s => (s, BitVec.ofNat 64 (bytes.count s))

/-- The header of a byte sequence's file (R251). -/
def headerOf (bytes : List Byte) : Header := ⟨frequencies bytes, BitVec.ofNat 64 bytes.length⟩

/-- The encoding procedure's commands, from a new table (R251). -/
def encodeCommands (bytes : List Byte) : List Issued :=
  plain .clear :: loadAll (frequencies bytes) ++ plain .build :: encodePass bytes

/-- The decoding procedure's commands for a parsed file (R252). -/
def decodeCommands (h : Header) (stream : List Byte) : List Issued :=
  plain .clear :: loadAll h.entries ++ plain .build :: decodePass h.total stream

/-- The file of a byte sequence, by the block that starts in e (R251). `none` where a command does not succeed. -/
def encodeFile (e : Engine) (bytes : List Byte) : Option (List Byte) :=
  match runPass e (encodeCommands bytes) with
  | some (_, stream) => some (headerBytes (headerOf bytes) ++ stream)
  | none => none

/-- The byte sequence of a file, by the block that starts in e (R252). `none` on a FormatError or a failed command. -/
def decodeFile (e : Engine) (file : List Byte) : Option (List Byte) :=
  match parseFile file with
  | .ok (h, stream) =>
    match runPass e (decodeCommands h stream) with
    | some (_, out) => some out
    | none => none
  | .error _ => none

end Sys2Proof.Machine
end

