-- ==== Sys2Proof/Machine/Listing.lean ====
section
/-! DEFINITION. The listings of spec/30_encoding.md rules R119 and R120 run on the machine: WR, RD, a command's mnemonic,
and SYNC. A listing's host is software outside the block; here it takes one access, then lets the engine take one step, one
of the interleavings R91 admits (notes/assumptions/12.md). -/

namespace Sys2Proof.Machine

/-- One operation of a listing (R119, R120). -/
inductive ListOp where
  /-- `WR NAME, v`. -/
  | wr (r : Reg) (v : Word)
  /-- `RD NAME`. -/
  | rd (r : Reg)
  /-- `MNEMONIC v`. -/
  | cmd (i : Instr)
  /-- `SYNC`. -/
  | sync
  deriving DecidableEq, Repr

/-- The host of a listing: the machine, the buffer HB (R120), and the values `RD` returned, last first. -/
structure Bench where
  machine : State
  hb : List Byte
  reads : List Word
  deriving DecidableEq, Repr

/-- One event at the machine. -/
def happen (ev : Event) (s : State) : Option State :=
  match step { s with agenda := [ev] } with
  | .next s' => some s'
  | .fault _ => none
  | .refused _ => none

/-- `MemRead(HUFF_BASE + off(NAME), 4)`, then one engine step. -/
def benchRead (r : Reg) (b : Bench) : Option (Word × Bench) :=
  match happen (.host (.read (b.machine.params.huffBase + offsetOf r) 4)) b.machine with
  | some s =>
    match happen .engine s with
    | some s' => some (s.rdata, { b with machine := s' })
    | none => none
  | none => none

/-- `MemWrite(HUFF_BASE + off(NAME), 4, v)`, then one engine step. -/
def benchWrite (r : Reg) (v : Word) (b : Bench) : Option Bench :=
  match happen (.host (.write (b.machine.params.huffBase + offsetOf r) 4 v)) b.machine with
  | some s =>
    match happen .engine s with
    | some s' => some { b with machine := s' }
    | none => none
  | none => none

/-- The read of OUT_DATA in SYNC (R120): whether an item came, and the host with it in HB. -/
def drainOne (b : Bench) : Option (Bool × Bench) :=
  match benchRead .outData b with
  | some (r, b') => if r.getLsbD 31 then some (true, { b' with hb := b'.hb ++ [r.extractLsb' 0 8] }) else some (false, b')
  | none => none

/-- `SYNC` (R120), for at most `fuel` turns of its loop. -/
def syncLoop : Nat → Bench → Option Bench
  | 0, _ => none
  | fuel + 1, b =>
    match drainOne b with
    | some (true, b1) => syncLoop fuel b1
    | some (false, b1) =>
      match benchRead .status b1 with
      | some (st, b2) =>
        if st.getLsbD 0 then syncLoop fuel b2
        else
          match drainOne b2 with
          | some (true, b3) => syncLoop fuel b3
          | some (false, b3) => some b3
          | none => none
      | none => none
    | none => none

/-- One operation of a listing. -/
def benchOp (fuel : Nat) (op : ListOp) (b : Bench) : Option Bench :=
  match op with
  | .wr r v => benchWrite r v b
  | .rd r =>
    match benchRead r b with
    | some (v, b') => some { b' with reads := v :: b'.reads }
    | none => none
  | .cmd i => benchWrite .cmd (encode i) b
  | .sync => syncLoop fuel b

/-- A listing, operation by operation. -/
def benchRun (fuel : Nat) : List ListOp → Bench → Option Bench
  | [], b => some b
  | op :: rest, b =>
    match benchOp fuel op b with
    | some b' => benchRun fuel rest b'
    | none => none

/-- The commands that take the 64-bit operand A (R113, R114); a host writes ARG0 and ARG1 for these alone (R120). -/
def takesOperand : Instr → Bool
  | .nop => false
  | .clear => false
  | .loadSym _ => true
  | .build => false
  | .queryCode _ => false
  | .encStart => false
  | .encSym _ => false
  | .encFlush => false
  | .decStart => true
  | .decByte _ => false
  | .decEnd => false

/-- The writes of an operand, `WR ARG0, a[31:0] ; WR ARG1, a[63:32]` (R120). -/
def operandOps (a : Quad) : List ListOp := [.wr .arg0 (a.extractLsb' 0 32), .wr .arg1 (a.extractLsb' 32 32)]

/-- A command issued, then SYNC: `LOADF` and `DSTART` of R120 where it takes an operand, else the bare command, which leaves ARG0
and ARG1 as they are (R306). -/
def issueOps (c : Issued) : List ListOp :=
  (if takesOperand c.instr then operandOps c.operand else []) ++ [.cmd c.instr, .sync]

/-- The listing of a sequence of commands, SYNC after every one (R120, R251, R252). -/
def issueAll (cs : List Issued) : List ListOp := cs.flatMap issueOps

/-- A host procedure on a block: its listing, HB empty at the start, then `RD STATUS`. Its result is HB, with the block as it is
left; `none` where STATUS shows an error, since then the result is not valid (R251, R252). An error is still shown at the end,
because error mode lasts (R275). -/
def procedure (fuel : Nat) (cs : List Issued) (s : State) : Option (List Byte × State) :=
  match benchRun fuel (issueAll cs) ⟨s, [], []⟩ with
  | some b =>
    match benchRead .status b with
    | some (st, b') => if st.extractLsb' 8 4 = 0 then some (b'.hb, b'.machine) else none
    | none => none
  | none => none

/-- The encoding procedure of R251 on a block: the file, the header first, then the items read from OUT_DATA. -/
def encodeOnBlock (fuel : Nat) (bytes : List Byte) (s : State) : Option (List Byte × State) :=
  match procedure fuel (encodeCommands bytes) s with
  | some (stream, s') => some (headerBytes (headerOf bytes) ++ stream, s')
  | none => none

/-- The decoding procedure of R252 on a block: the items read from OUT_DATA. `none` on a FormatError (R253) or a failed command. -/
def decodeOnBlock (fuel : Nat) (file : List Byte) (s : State) : Option (List Byte × State) :=
  match parseFile file with
  | .ok (h, stream) => procedure fuel (decodeCommands h stream) s
  | .error _ => none

end Sys2Proof.Machine
end

