-- ==== Sys2Proof/Safety.lean ====
section
/-! DEFINITION. What a safe state is, in the terms the statements use: the invariants of the engine state that the spec's
derived rules rest on (spec/10_state.md rules R40 to R45, spec/41_tree_build.md rules R179 and R180, spec/42_encode.md rule
R204, spec/43_decode.md rule R226), and those of the command latch and the output FIFO (R48, R51, R53). -/

namespace Sys2Proof.Machine

/-- The number of set bits of PRESENT (R43). -/
def presentCount (p : BitVec 256) : Nat := (List.range nSym).countP p.getLsbD

/-- Strict key order (R9). -/
def keyLt (m n : Node) : Prop :=
  m.freq.toNat < n.freq.toNat ∨ (m.freq = n.freq ∧ m.data.toNat < n.data.toNat)

/-- The node a path leads to from n, 0 left and 1 right; `none` where it leaves the tree (R177, R221). -/
def follow (nodes : List Node) (n : NodeIdx) : List Bool → Option NodeIdx
  | [] => some n
  | b :: rest =>
    if (nodeAt nodes n).kind = .internal then follow nodes (childOf (nodeAt nodes n) b) rest else none

/-- The bits in the accumulator, in the order they were appended (R45). -/
def accBits (e : Engine) : List Bool := (List.range e.accCnt.toNat).map e.acc.getLsbD

/-- code(s_1) ++ .. ++ code(s_m), the bit sequence of a pass (R205). -/
def codeStream (e : Engine) (bytes : List Byte) : List Bool := bytes.flatMap fun b => (codeAt e.code b).path

/-- Key order of R9 as the comparison `<=key`. -/
def keyLeProp (m n : Node) : Prop := keyLt m n ∨ (m.freq = n.freq ∧ m.data = n.data)

/-- The clear form of what BUILD does: trees as values, with exact frequencies, in place of entries of an arena
(R173, R175, R182: "structurally identical tree"). -/
inductive HTree where
  | leaf (freq : Nat) (sym : Byte)
  | node (freq : Nat) (data : Byte) (left right : HTree)
  deriving DecidableEq, Repr

/-- The frequency in a tree's key (R9). -/
def HTree.freq : HTree → Nat
  | .leaf f _ => f
  | .node f _ _ _ => f

/-- The DATA in a tree's key (R9). -/
def HTree.data : HTree → Byte
  | .leaf _ s => s
  | .node _ d _ _ => d

/-- Insert by key, after equal keys (R170, R171). -/
def HTree.insert : List HTree → HTree → List HTree
  | [], t => [t]
  | x :: rest, t =>
    if x.freq < t.freq ∨ (x.freq = t.freq ∧ x.data.toNat ≤ t.data.toNat) then x :: HTree.insert rest t
    else t :: x :: rest

/-- The merges of R176, on at most the given number of rounds: the two first trees become one (R175). -/
def HTree.mergeAll : Nat → List HTree → List HTree
  | 0, l => l
  | n + 1, a :: b :: rest =>
    HTree.mergeAll n (HTree.insert rest (.node (a.freq + b.freq) a.data a b))
  | _ + 1, l => l

/-- The path to the leaf of a symbol, 0 left and 1 right (R177). A tree of BUILD has one leaf a symbol, so it does not matter
which child is searched first. -/
def HTree.codeOf : HTree → Byte → Option (List Bool)
  | .leaf _ x, s => if x = s then some [] else none
  | .node _ _ l r, s =>
    match r.codeOf s with
    | some p => some (true :: p)
    | none => (l.codeOf s).map (false :: ·)

/-- The code table entry of a symbol, from the trees left by the merges (R44, R177). -/
def HTree.entryOf (l : List HTree) (s : Byte) : Code :=
  match l with
  | [t] =>
    match t.codeOf s with
    | some p => ⟨true, BitVec.ofNat 8 p.length, pathBits p⟩
    | none => Code.absent
  | _ => Code.absent

/-- The leaf of an entry, as a tree. -/
def leafTree (nd : Node) : HTree := .leaf nd.freq.toNat nd.data

/-- The symbols at the leaves, left to right. -/
def HTree.syms : HTree → List Byte
  | .leaf _ x => [x]
  | .node _ _ l r => l.syms ++ r.syms

/-- The tree under an entry of the arena, as a value; the fuel is more than its depth (R40, R175). -/
def treeAt (nodes : List Node) : Nat → NodeIdx → HTree
  | 0, _ => .leaf 0 0
  | fuel + 1, k =>
    match (nodeAt nodes k).kind with
    | .leaf => leafTree (nodeAt nodes k)
    | .internal =>
      .node (nodeAt nodes k).freq.toNat (nodeAt nodes k).data (treeAt nodes fuel (nodeAt nodes k).left)
        (treeAt nodes fuel (nodeAt nodes k).right)
    | .free => .leaf 0 0

/-- The sum of the frequencies of the nodes of a list. -/
def freqSum (nodes : List Node) (pl : List NodeIdx) : Nat := (pl.map fun k => (nodeAt nodes k).freq.toNat).sum

/-- The loaded leaves: NODE[0..NSYM-1] are the LEAF entries, one for each symbol present, with 64-bit frequencies
(R40, R43, R172). -/
structure LeavesOk (e : Engine) : Prop where
  count : e.nsym.toNat = presentCount e.present
  room : e.nsym.toNat ≤ e.node.length
  leaf : ∀ k : NodeIdx, k.val < e.nsym.toNat →
    (nodeAt e.node k).kind = .leaf ∧ (nodeAt e.node k).freq.toNat < 2 ^ 64 ∧ e.has (nodeAt e.node k).data = true
  distinct : ∀ j k : NodeIdx, j.val < e.nsym.toNat → k.val < e.nsym.toNat →
    (nodeAt e.node j).data = (nodeAt e.node k).data → j = k
  covered : ∀ s : Byte, e.has s = true → ∃ k : NodeIdx, k.val < e.nsym.toNat ∧ (nodeAt e.node k).data = s

/-- A table is being loaded (R41, R42, R44): only leaves, the list holds each of them once in strictly ascending key order,
no root, no codes. -/
structure Loading (e : Engine) : Prop where
  leaves : LeavesOk e
  only : e.node.length = e.nsym.toNat
  sorted : e.pl.Pairwise fun j k => keyLt (nodeAt e.node j) (nodeAt e.node k)
  listed : ∀ k : NodeIdx, k ∈ e.pl ↔ k.val < e.nsym.toNat
  size : e.pl.length = e.nsym.toNat
  rootless : e.root = none
  codeless : e.code = List.replicate nSym Code.absent

/-- A tree is built (R40, R42, R44, R175, R176, R180): n - 1 INTERNAL entries follow the n leaves, each over two different
earlier entries, with the sum of their frequencies and the DATA of the left one; the last entry is the root, and the tree under
it has no symbol twice; each symbol present, and no other, has a code, and its path leads from the root to the symbol's leaf. -/
structure Built (e : Engine) : Prop where
  leaves : LeavesOk e
  merges : e.node.length = e.nsym.toNat + (e.nsym.toNat - 1)
  internal : ∀ k : NodeIdx, e.nsym.toNat ≤ k.val → k.val < e.node.length →
    (nodeAt e.node k).kind = .internal ∧ (nodeAt e.node k).left.val < k.val ∧ (nodeAt e.node k).right.val < k.val ∧
    (nodeAt e.node k).left ≠ (nodeAt e.node k).right ∧
    (nodeAt e.node k).freq.toNat =
      (nodeAt e.node (nodeAt e.node k).left).freq.toNat + (nodeAt e.node (nodeAt e.node k).right).freq.toNat ∧
    (nodeAt e.node k).data = (nodeAt e.node (nodeAt e.node k).left).data
  spent : e.pl = []
  rootless : e.nsym = 0 → e.root = none
  rooted : e.nsym ≠ 0 → ∃ r : NodeIdx, e.root = some r ∧ r.val + 1 = e.node.length
  once : ∀ r : NodeIdx, e.root = some r → (treeAt e.node nNodes r).syms.Nodup
  table : e.code.length = nSym
  coded : ∀ s : Byte, (codeAt e.code s).valid = e.has s
  absent : ∀ s : Byte, e.has s = false → codeAt e.code s = Code.absent
  path : ∀ (s : Byte) (r : NodeIdx), e.has s = true → e.root = some r →
    ∃ m : NodeIdx, follow e.node r (codeAt e.code s).path = some m ∧ m.val < e.nsym.toNat ∧ (nodeAt e.node m).data = s
  high : ∀ s : Byte, (codeAt e.code s).bits.toNat < 2 ^ (codeAt e.code s).len.toNat

/-- The decode cursor (R224, R226): COUNT never passes TOTAL; while it is below, at least two symbols are loaded and POS is at
an INTERNAL node; once it is there, POS is at the root. -/
structure CursorOk (e : Engine) : Prop where
  bounded : e.count.toNat ≤ e.total.toNat
  inside : e.count ≠ e.total → 2 ≤ e.nsym.toNat ∧ ∃ p : NodeIdx, e.pos = some p ∧ (nodeAt e.node p).kind = .internal
  home : e.count = e.total → e.pos = e.root

/-- The invariant of the engine state. -/
structure Engine.Inv (e : Engine) : Prop where
  loading : e.mode = .load → Loading e
  built : e.mode = .built ∨ e.mode = .enc ∨ e.mode = .dec → Built e
  failed : e.mode = .error → Loading e ∨ Built e
  cursor : e.mode = .dec → CursorOk e
  record : e.mode = .error ↔ e.errCode ≠ .noError
  clean : e.errCode = .noError → e.errCmd = 0
  packed : e.acc.toNat < 2 ^ e.accCnt.toNat
  queried : e.qbits.toNat < 2 ^ e.qlen.toNat ∧ e.qlen.toNat ≤ maxCodeLen

/-- PENDING is what Exec computed from the committed engine state and the latched command, less the items already pushed
(R51, R53, R148, R149). -/
def PendingOk (s : State) : Prop :=
  ∀ p : Pending, s.pending = some p →
    ∃ (c : Command) (i : Instr) (items : List Run),
      s.cur = some c ∧ decode c.word = .ok i ∧ execCommand s.engine i c.operand = .ok p.next items ∧
        itemsOf p.items <:+ itemsOf items

/-- The invariant of the machine. -/
structure State.Inv (s : State) : Prop where
  engine : s.engine.Inv
  latch : s.busy = s.cur.isSome
  pending : PendingOk s
  bounded : s.out.length ≤ s.params.outDepth
  failed : s.engine.mode = .error → ∀ c : Command, s.cur = some c → c.word = encode .clear
  held : s.rst = true → s = resetBlock s

/-- The next event, where it is a host access, is to an address of the window. -/
def InWindow (s : State) : Prop :=
  ∀ (a : Access) (rest : List Event), s.agenda = .host a :: rest →
    match a with
    | .read addr _ => (windowOffset s.params addr).isSome = true
    | .write addr _ _ => (windowOffset s.params addr).isSome = true

/-- It is the engine's move: nothing is scheduled, or the engine's move is next. `rest` is what is scheduled after it. -/
def EngineMoves (s : State) (rest : List Event) : Prop :=
  (s.agenda = [] ∧ rest = []) ∨ s.agenda = .engine :: rest

/-- The step from s to t is a reset of R300: the `rst` input is asserted, or the host writes a word with bit 0 set to CTRL; and t
is what the reset of R301 leaves. -/
def IsReset (s t : State) : Prop :=
  (∃ rest, s.agenda = .rst true :: rest ∧ t = resetBlock { s with rst := true, agenda := rest }) ∨
  ∃ v rest, s.rst = false ∧ s.agenda = .host (.write (s.params.huffBase + 0x08) 4 v) :: rest ∧ v.getLsbD 0 = true ∧
    t = resetBlock { s with agenda := rest }

/-- The step from s to t is the E-DONE of the latched command c, whose next engine state is e (R150). -/
def IsDone (c : Command) (e : Engine) (s t : State) : Prop :=
  ∃ rest p, EngineMoves s rest ∧ s.rst = false ∧ s.cur = some c ∧ s.pending = some p ∧ itemsOf p.items = [] ∧ p.next = e ∧
    t = engineDone p { s with agenda := rest }

/-- A command is latched and nothing computed yet: E-EXEC is enabled (R148). -/
def ExecReady (s : State) (c : Command) : Prop := s.rst = false ∧ s.pending = none ∧ s.cur = some c

end Sys2Proof.Machine
end

