-- ==== Sys2Proof/Certificates/Slice0/Obligations.lean ====
section
/-! DEFINITION. The statements about the block, one `Prop` each, from the numbered rules of spec/. An instruction's statement
says what E-EXEC answers for it (R148): PENDING = (S', L), where S' is the whole of the command's effect on the engine state;
`DoneCommitsTheWholeEngineState` and `CommandCompletesInTwoPlusItemsSteps` carry S' and L to the registers and to OUT. -/

open Sys2Proof Sys2Proof.Machine

/-! ## Command words -/

/-- Sanity: words written out from the match column of R114, one or more a family. -/
def Obligations.WordsOfEveryFamilyDecode : Prop :=
  decode 0x00000000 = .ok .nop ∧ decode 0x00000001 = .ok .clear ∧ decode 0x00006102 = .ok (.loadSym 0x61) ∧
  decode 0x00000003 = .ok .build ∧ decode 0x0000FF04 = .ok (.queryCode 0xFF) ∧ decode 0x00000010 = .ok .encStart ∧
  decode 0x00006111 = .ok (.encSym 0x61) ∧ decode 0x00000012 = .ok .encFlush ∧ decode 0x00000020 = .ok .decStart ∧
  decode 0x00000721 = .ok (.decByte 0x07) ∧ decode 0x00000022 = .ok .decEnd ∧
  decode 0x00000100 = .error .immNotZero ∧ decode 0x00016111 = .error .reservedBits ∧ decode 0x00000005 = .error .reservedOpcode

/-- R111, R114, R115: decoding the bytes of an encoded instruction gives it back, every operand at every value, and leaves
what follows. -/
def Obligations.DecodeOfEncodeIsTheInstruction : Prop :=
  ∀ (i : Instr) (rest : List Byte), i.wf = true → decodeBytes (bytesOf (encode i) ++ rest) = .ok (i, rest)

/-- R114, R115: a legal word has one meaning, and it is `match | (v << 8)` of its row. -/
def Obligations.LegalWordIsItsRowsWord : Prop :=
  ∀ (w : Word) (i : Instr), decode w = .ok i →
    w = match i with
      | .nop => 0x00000000#32
      | .clear => 0x00000001#32
      | .loadSym s => 0x00000002#32 ||| (s.setWidth 32 <<< 8)
      | .build => 0x00000003#32
      | .queryCode s => 0x00000004#32 ||| (s.setWidth 32 <<< 8)
      | .encStart => 0x00000010#32
      | .encSym s => 0x00000011#32 ||| (s.setWidth 32 <<< 8)
      | .encFlush => 0x00000012#32
      | .decStart => 0x00000020#32
      | .decByte b => 0x00000021#32 ||| (b.setWidth 32 <<< 8)
      | .decEnd => 0x00000022#32

/-- R115, R116: exactly these words are ILLEGAL, and there are 4 * 256 + 7 others. -/
def Obligations.IllegalWordsExactly : Prop :=
  (∀ w : Word, (∃ x, decode w = .error x) ↔
    (w.extractLsb' 16 16 ≠ 0 ∨
      w.extractLsb' 0 8 ∉ [0x00#8, 0x01#8, 0x02#8, 0x03#8, 0x04#8, 0x10#8, 0x11#8, 0x12#8, 0x20#8, 0x21#8, 0x22#8] ∨
      (w.extractLsb' 0 8 ∈ [0x00#8, 0x01#8, 0x03#8, 0x10#8, 0x12#8, 0x20#8, 0x22#8] ∧ w.extractLsb' 8 8 ≠ 0))) ∧
  ∃ legal : List Word, legal.Nodup ∧ legal.length = 4 * 256 + 7 ∧ ∀ w, w ∈ legal ↔ ∃ i, decode w = .ok i

/-! ## Steps -/

/-- R148, R91: where it is the engine's move and a command is latched with nothing computed yet, a step is exec of the decoded
command on that state, the event taken off the agenda. (The agenda is the model's own: notes/assumptions/1.md.) -/
def Obligations.StepRunsTheLatchedCommand : Prop :=
  ∀ (s : State) (rest : List Event) (c : Command) (i : Instr), EngineMoves s rest → ExecReady s c →
    decode c.word = .ok i → step s = exec i { s with agenda := rest }

/-- R116, R148, R272: an illegal word has the one effect ILLEGAL_CMD. -/
def Obligations.IllegalWordTakesIllegalCmd : Prop :=
  ∀ (s : State) (rest : List Event) (c : Command) (x : Illegal), EngineMoves s rest → ExecReady s c →
    decode c.word = .error x →
      step s = .next { s with
        agenda := rest
        engine := { s.engine with errCode := .illegalCmd, errCmd := c.word, mode := .error }
        intErr := true, cur := none, busy := false }

/-- R272: where the command's rule finds an error, error entry is its whole effect. -/
def Obligations.ErrorEntryIsTheWholeEffect : Prop :=
  ∀ (s : State) (c : Command) (i : Instr) (code : ErrCode), ExecReady s c → decode c.word = .ok i →
    execCommand s.engine i c.operand = .err code →
      exec i s = .next { s with
        engine := { s.engine with errCode := code, errCmd := c.word, mode := .error }
        intErr := true, cur := none, busy := false }

/-- R151: Exec and the mode-legality table. ILLEGAL_CMD comes first; in a mode where the table says yes or BAD_STATE, a command is
BAD_STATE exactly outside its modes; and each command leaves its mode on success. Where the table says "discarded" (MODE = ERROR,
a command other than CLEAR) the spec gives Exec no answer, since such a word never reaches it (R143): the third clause, that exec
answers BAD_STATE there, is the model's reading (DEDUCED, notes/assumptions/13.md), and no rule's. -/
def Obligations.ModeLegalityTable : Prop :=
  ∀ (s : State) (c : Command), ExecReady s c →
    (∀ x, decode c.word = .error x → engineExec c s = .next (errorEntry .illegalCmd c.word s)) ∧
    ∀ i, decode c.word = .ok i →
      (s.engine.mode ≠ .error ∨ i = .clear →
        (exec i s = .next (errorEntry .badState c.word s) ↔
          ¬ (match i with
            | .nop | .clear => True
            | .loadSym _ | .build => s.engine.mode = .load
            | .queryCode _ => s.engine.mode = .built ∨ s.engine.mode = .enc ∨ s.engine.mode = .dec
            | .encStart | .decStart => s.engine.mode = .built
            | .encSym _ | .encFlush => s.engine.mode = .enc
            | .decByte _ | .decEnd => s.engine.mode = .dec))) ∧
      (∀ e' items, exec i s = .next { s with pending := some ⟨e', items⟩ } →
        e'.mode = match i with
          | .nop | .queryCode _ => s.engine.mode
          | .clear | .loadSym _ => .load
          | .build | .encFlush | .decEnd => .built
          | .encStart | .encSym _ => .enc
          | .decStart | .decByte _ => .dec) ∧
      (s.engine.mode = .error → i ≠ .clear → exec i s = .next (errorEntry .badState c.word s))

/-! ## Control commands -/

/-- R152: NOP changes nothing and emits nothing. -/
def Obligations.NopChangesNothing : Prop :=
  ∀ s : State, s.engine.mode ≠ .error → exec .nop s = .next { s with pending := some ⟨s.engine, []⟩ }

/-- R153: CLEAR is legal in every mode, and S' has every engine-state element at its reset value. -/
def Obligations.ClearResetsTheEngineState : Prop :=
  ∀ s : State, exec .clear s = .next { s with pending := some ⟨{
    mode := .load, node := [], pl := [], root := none, present := 0, nsym := 0
    code := List.replicate 256 ⟨false, 0, 0⟩
    acc := 0, accCnt := 0, pos := none, count := 0, total := 0, errCode := .noError, errCmd := 0
    qsym := 0, qvalid := false, qlen := 0, qbits := 0 }, []⟩ }

/-! ## Tree building -/

/-- R170, R171: Insert places a node before the first one whose key is greater than its own. -/
def Obligations.InsertPlacesByKeyAfterEquals : Prop :=
  ∀ (nodes : List Node) (pl : List NodeIdx) (n : NodeIdx),
    ∃ front back : List NodeIdx, pl = front ++ back ∧ insert nodes pl n = front ++ [n] ++ back ∧
      (∀ x ∈ front, keyLeProp (nodeAt nodes x) (nodeAt nodes n)) ∧
      ∀ x ∈ back.head?, ¬ keyLeProp (nodeAt nodes x) (nodeAt nodes n)

/-- R172: LOAD_SYM of a symbol not yet loaded writes its leaf at NODE[NNODES], inserts it, and counts it. -/
def Obligations.LoadSymLoadsOneLeaf : Prop :=
  ∀ (s : State) (c : Command) (sym : Byte), ExecReady s c → s.engine.mode = .load → s.engine.has sym = false →
    ∀ h : s.engine.node.length < 511,
      exec (.loadSym sym) s = .next { s with pending := some ⟨{ s.engine with
        node := s.engine.node ++ [⟨.leaf, c.operand.setWidth 72, sym, 0, 0⟩]
        pl := insert (s.engine.node ++ [⟨.leaf, c.operand.setWidth 72, sym, 0, 0⟩]) s.engine.pl ⟨s.engine.node.length, h⟩
        present := s.engine.present ||| BitVec.twoPow 256 sym.toNat
        nsym := s.engine.nsym + 1 }, []⟩ }

/-- R172, R41, R43: a loading table that takes a new symbol is a loading table again: PL stays strictly sorted by key, holds
exactly the loaded leaves, and NSYM is the number of set bits of PRESENT. The arena always has room. -/
def Obligations.LoadSymKeepsTheListSorted : Prop :=
  ∀ (s : State) (c : Command) (sym : Byte), ExecReady s c → s.engine.mode = .load → Loading s.engine →
    s.engine.has sym = false →
      ∃ e', exec (.loadSym sym) s = .next { s with pending := some ⟨e', []⟩ } ∧ Loading e' ∧
        e'.nsym.toNat = s.engine.nsym.toNat + 1 ∧ ∀ x, e'.has x = (s.engine.has x || x == sym)

/-- R172, D19: LOAD_SYM of a loaded symbol takes DUP_SYMBOL. -/
def Obligations.LoadSymOfLoadedSymbolIsDupSymbol : Prop :=
  ∀ (s : State) (c : Command) (sym : Byte), ExecReady s c → s.engine.mode = .load → s.engine.has sym = true →
    exec (.loadSym sym) s = .next (errorEntry .dupSymbol c.word s)

/-- R175: Merge removes the two first nodes and inserts the INTERNAL node over them: the exact sum of their frequencies, DATA of
the first removed, LEFT the first and RIGHT the second removed. -/
def Obligations.MergeMakesTheParent : Prop :=
  ∀ (nodes : List Node) (a b : NodeIdx) (rest : List NodeIdx) (h : nodes.length < 511),
    (nodeAt nodes a).freq.toNat + (nodeAt nodes b).freq.toNat < 2 ^ 72 →
      ∃ nd : Node, nd.kind = .internal ∧ nd.freq.toNat = (nodeAt nodes a).freq.toNat + (nodeAt nodes b).freq.toNat ∧
        nd.data = (nodeAt nodes a).data ∧ nd.left = a ∧ nd.right = b ∧
        merge nodes (a :: b :: rest) = .ok (nodes ++ [nd], insert (nodes ++ [nd]) rest ⟨nodes.length, h⟩)

/-- R176, R180: BUILD of a loaded table of n symbols succeeds: n - 1 merges, the last entry the root, PL empty, MODE = BUILT,
NSYM, PRESENT and every other element unchanged; the root's frequency is the sum of the loaded ones. -/
def Obligations.BuildMergesToOneRoot : Prop :=
  ∀ s : State, s.engine.mode = .load → Loading s.engine →
    ∃ nodes root code,
      exec .build s = .next { s with pending := some ⟨{ s.engine with
        node := nodes, root := root, pl := [], code := code, mode := .built }, []⟩ } ∧
      nodes.length = s.engine.nsym.toNat + (s.engine.nsym.toNat - 1) ∧
      (∀ k : NodeIdx, k.val < s.engine.nsym.toNat → nodeAt nodes k = nodeAt s.engine.node k) ∧
      (s.engine.nsym = 0 → root = none) ∧
      (s.engine.nsym ≠ 0 → ∃ r : NodeIdx, root = some r ∧ r.val + 1 = nodes.length ∧
        (nodeAt nodes r).freq.toNat = freqSum s.engine.node s.engine.pl) ∧
      Built { s.engine with node := nodes, root := root, pl := [], code := code, mode := .built }

/-- R173, R175, R176, R177: BUILD's code table is that of the plain merge algorithm on trees as values, from the loaded leaves
in key order. -/
def Obligations.BuildIsThePlainMergeAlgorithm : Prop :=
  ∀ s : State, s.engine.mode = .load → Loading s.engine →
    ∃ e', exec .build s = .next { s with pending := some ⟨e', []⟩ } ∧
      ∀ sym, codeAt e'.code sym =
        HTree.entryOf (HTree.mergeAll s.engine.pl.length (s.engine.pl.map fun k => leafTree (nodeAt s.engine.node k))) sym

/-- R180: the codes of a built table: none for a symbol not loaded; length 0 for the only symbol; else between 1 and n - 1
bits, at most 255. -/
def Obligations.CodeLengthsOfABuiltTable : Prop :=
  ∀ e : Engine, Built e → ∀ sym : Byte,
    (e.has sym = false → (codeAt e.code sym).valid = false) ∧
    (e.has sym = true → (codeAt e.code sym).valid = true ∧
      (e.nsym = 1 → (codeAt e.code sym).len = 0) ∧
      (e.nsym ≠ 1 → 1 ≤ (codeAt e.code sym).len.toNat ∧ (codeAt e.code sym).len.toNat ≤ e.nsym.toNat - 1))

/-- R118, R181: no code is a prefix of another. -/
def Obligations.CodesArePrefixFree : Prop :=
  ∀ (e : Engine) (x y : Byte), Built e → e.has x = true → e.has y = true → x ≠ y →
    ¬ (codeAt e.code x).path <+: (codeAt e.code y).path

/-- R181: every bit sequence of 255 bits begins with the code of a loaded symbol. -/
def Obligations.EveryBitSequenceMeetsALeaf : Prop :=
  ∀ (e : Engine) (bits : List Bool), Built e → e.nsym ≠ 0 → bits.length = 255 →
    ∃ x : Byte, e.has x = true ∧ (codeAt e.code x).path <+: bits

/-- R181: the code lengths meet sum over present s of 2^-CLEN[s] = 1 (both sides times 2^255). -/
def Obligations.CodeLengthsFillTheTree : Prop :=
  ∀ e : Engine, Built e → e.nsym ≠ 0 →
    ((allSymbols.filter fun x => e.has x).map fun x => 2 ^ (255 - (codeAt e.code x).len.toNat)).sum = 2 ^ 255

/-- R173, R182: two BUILDs whose LOAD_SYM commands since CLEAR (or since reset) loaded the same set of pairs, in whatever order,
both succeed and give every symbol the same code. Over runPass, the composition of the pure Exec functions: that commands with
SYNC after each are that composition is the model's reading (DEDUCED, notes/assumptions/18.md). -/
def Obligations.BuildDependsOnTheLoadedSetOnly : Prop :=
  ∀ (e1 e2 : Engine) (l1 l2 : List (Byte × Quad)), (l1.map Prod.fst).Nodup → l1.Perm l2 →
    ∃ b1 b2, runPass e1 (plain .clear :: loadAll l1 ++ [plain .build]) = some (b1, []) ∧
      runPass Engine.reset (loadAll l1 ++ [plain .build]) = some (b1, []) ∧
      runPass e2 (plain .clear :: loadAll l2 ++ [plain .build]) = some (b2, []) ∧
      ∀ sym, codeAt b1.code sym = codeAt b2.code sym

/-- R178: QUERY_CODE copies the symbol's table entry to the query registers and changes nothing else. -/
def Obligations.QueryCodeCopiesTheEntry : Prop :=
  ∀ (s : State) (sym : Byte), s.engine.mode = .built ∨ s.engine.mode = .enc ∨ s.engine.mode = .dec →
    exec (.queryCode sym) s = .next { s with pending := some ⟨{ s.engine with
      qsym := sym
      qvalid := (codeAt s.engine.code sym).valid
      qlen := (codeAt s.engine.code sym).len.setWidth 9
      qbits := (codeAt s.engine.code sym).bits.setWidth 256 }, []⟩ }

/-! ## The packer -/

/-- R200: PackBit. -/
def Obligations.PackBitAppendsOneBit : Prop :=
  ∀ (e : Engine) (b : Bool), ∃ v : Byte,
    (∀ k, v.getLsbD k = if k = e.accCnt.toNat then b else e.acc.getLsbD k) ∧
    (e.accCnt = 7 → packBit e b = ({ e with acc := 0, accCnt := 0 }, [v])) ∧
    (e.accCnt ≠ 7 → packBit e b = ({ e with acc := v, accCnt := e.accCnt + 1 }, []))

/-- R201: ENC_START. -/
def Obligations.EncStartOpensAPass : Prop :=
  ∀ s : State, s.engine.mode = .built →
    exec .encStart s = .next { s with pending := some ⟨{ s.engine with acc := 0, accCnt := 0, count := 0, mode := .enc }, []⟩ }

/-- R202: ENC_SYM of a symbol with a code: the bits of the code go after those in the accumulator and come out of it eight at a
time, floor((ACC_CNT + CLEN) / 8) bytes; COUNT goes up by one; nothing else changes. -/
def Obligations.EncSymAppendsTheCode : Prop :=
  ∀ (s : State) (sym : Byte), s.engine.mode = .enc → s.engine.acc.toNat < 2 ^ s.engine.accCnt.toNat →
    (codeAt s.engine.code sym).valid = true → s.engine.count ≠ BitVec.allOnes 64 →
      ∃ acc accCnt items,
        exec (.encSym sym) s = .next { s with pending := some ⟨{ s.engine with
          acc := acc, accCnt := accCnt, count := s.engine.count + 1 }, items⟩ } ∧
        accBits s.engine ++ (codeAt s.engine.code sym).path =
          (itemsOf items).flatMap byteBits ++ accBits { s.engine with acc := acc, accCnt := accCnt } ∧
        acc.toNat < 2 ^ accCnt.toNat ∧
        (itemsOf items).length = (s.engine.accCnt.toNat + (codeAt s.engine.code sym).len.toNat) / 8 ∧
        (itemsOf items).length ≤ 32

/-- R202, R274: SYM_ABSENT is checked first, then COUNT_OVERFLOW. -/
def Obligations.EncSymErrorsInOrder : Prop :=
  ∀ (s : State) (c : Command) (sym : Byte), ExecReady s c → s.engine.mode = .enc →
    ((codeAt s.engine.code sym).valid = false → exec (.encSym sym) s = .next (errorEntry .symAbsent c.word s)) ∧
    ((codeAt s.engine.code sym).valid = true → s.engine.count = BitVec.allOnes 64 →
      exec (.encSym sym) s = .next (errorEntry .countOverflow c.word s))

/-- R203: ENC_FLUSH emits the accumulator if it holds a bit, and closes the pass; COUNT keeps its value. -/
def Obligations.EncFlushPadsAndCloses : Prop :=
  ∀ s : State, s.engine.mode = .enc →
    ∃ items, exec .encFlush s = .next { s with pending := some ⟨{ s.engine with
        acc := 0, accCnt := 0, mode := .built }, items⟩ } ∧
      (s.engine.accCnt = 0 → itemsOf items = []) ∧ (s.engine.accCnt ≠ 0 → itemsOf items = [s.engine.acc])

/-- R205: a pass over symbols that all have a code emits ceil(|B| / 8) bytes, whose bits are B and then zeros, and leaves the
table and the tree for further passes. Over runPass, the composition of the pure Exec functions: that commands with SYNC after
each are that composition is the model's reading (DEDUCED, notes/assumptions/18.md). -/
def Obligations.PackedStreamOfAPass : Prop :=
  ∀ (e : Engine) (bytes : List Byte), e.mode = .built → (∀ b ∈ bytes, (codeAt e.code b).valid = true) →
    bytes.length < 2 ^ 64 →
      ∃ stream, runPass e (encodePass bytes) =
          some ({ e with acc := 0, accCnt := 0, count := BitVec.ofNat 64 bytes.length, mode := .built }, stream) ∧
        stream.length = ((codeStream e bytes).length + 7) / 8 ∧
        ∀ (j : Nat) (i : Nat), j < stream.length → i < 8 →
          (stream.getD j 0).getLsbD i = (codeStream e bytes).getD (8 * j + i) false

/-! ## The walker -/

/-- R221: WalkBit at an INTERNAL node. -/
def Obligations.WalkBitDescendsAndEmits : Prop :=
  ∀ (e : Engine) (b : Bool) (p : NodeIdx), e.pos = some p → (nodeAt e.node p).kind = .internal →
    ∃ q : NodeIdx, (b = false → q = (nodeAt e.node p).left) ∧ (b = true → q = (nodeAt e.node p).right) ∧
      ((nodeAt e.node q).kind = .leaf →
        walkBit e b = .ok ({ e with count := e.count + 1, pos := e.root }, [(nodeAt e.node q).data])) ∧
      ((nodeAt e.node q).kind ≠ .leaf → walkBit e b = .ok ({ e with pos := some q }, []))

/-- R222, R225: DEC_START on a built table: FORMAT_EMPTY for a total with no symbol loaded; TOTAL copies of the only symbol,
COUNT = TOTAL at once; else an open pass at the root with COUNT = 0. -/
def Obligations.DecStartOpensAPass : Prop :=
  ∀ (s : State) (c : Command), ExecReady s c → s.engine.mode = .built → Built s.engine →
    (s.engine.nsym = 0 → c.operand ≠ 0 → exec .decStart s = .next (errorEntry .formatEmpty c.word s)) ∧
    (s.engine.nsym = 1 → ∃ (r : NodeIdx) (items : List Run), s.engine.root = some r ∧
      itemsOf items = List.replicate c.operand.toNat (nodeAt s.engine.node r).data ∧
      exec .decStart s = .next { s with pending := some ⟨{ s.engine with
        total := c.operand, count := c.operand, pos := s.engine.root, mode := .dec }, items⟩ }) ∧
    (s.engine.nsym ≠ 1 → s.engine.nsym ≠ 0 ∨ c.operand = 0 →
      exec .decStart s = .next { s with pending := some ⟨{ s.engine with
        total := c.operand, count := 0, pos := s.engine.root, mode := .dec }, []⟩ })

/-- R223, R226: DEC_BYTE in a built table with the cursor inside the tree always completes: it walks the byte's bits, v[0] first,
emits at most 8 symbols, counts each, never passes TOTAL, and writes only COUNT and POS. -/
def Obligations.DecByteWalksTheTree : Prop :=
  ∀ (s : State) (v : Byte), s.engine.mode = .dec → Built s.engine → CursorOk s.engine →
    ∃ count pos items,
      exec (.decByte v) s = .next { s with pending := some ⟨{ s.engine with count := count, pos := pos }, items⟩ } ∧
      walkBits s.engine [v.getLsbD 0, v.getLsbD 1, v.getLsbD 2, v.getLsbD 3, v.getLsbD 4, v.getLsbD 5, v.getLsbD 6,
        v.getLsbD 7] = .ok ({ s.engine with count := count, pos := pos }, itemsOf items) ∧
      CursorOk { s.engine with count := count, pos := pos } ∧
      count.toNat = s.engine.count.toNat + (itemsOf items).length ∧ (itemsOf items).length ≤ 8

/-- R223: with COUNT = TOTAL on entry DEC_BYTE consumes nothing, emits nothing and raises nothing. -/
def Obligations.DecByteAfterTheLastSymbolDoesNothing : Prop :=
  ∀ (s : State) (v : Byte), s.engine.mode = .dec → s.engine.count = s.engine.total →
    exec (.decByte v) s = .next { s with pending := some ⟨s.engine, []⟩ }

/-- R220, R221, R223: from the root, the bits of a symbol's code emit that symbol and bring the cursor back to the root. -/
def Obligations.CodeBitsDecodeToTheirSymbol : Prop :=
  ∀ (e : Engine) (x : Byte) (more : List Bool), Built e → 2 ≤ e.nsym.toNat → e.has x = true → e.pos = e.root →
    e.count.toNat < e.total.toNat →
      walkBits e ((codeAt e.code x).path ++ more) =
        match walkBits { e with count := e.count + 1 } more with
        | .ok (e', l) => .ok (e', x :: l)
        | .error f => .error f

/-- R224: DEC_END closes a complete pass, and takes TRUNCATED in an incomplete one; COUNT and TOTAL keep their values. -/
def Obligations.DecEndChecksTheCount : Prop :=
  ∀ (s : State) (c : Command), ExecReady s c → s.engine.mode = .dec →
    (s.engine.total.toNat ≤ s.engine.count.toNat →
      exec .decEnd s = .next { s with pending := some ⟨{ s.engine with mode := .built }, []⟩ }) ∧
    (s.engine.count.toNat < s.engine.total.toNat → exec .decEnd s = .next (errorEntry .truncated c.word s))

/-- R227: encoding a byte sequence and decoding the stream, each side from a new table, gives the sequence back. Over runPass, the
composition of the pure Exec functions: that commands with SYNC after each are that composition is the model's reading (DEDUCED,
notes/assumptions/18.md). -/
def Obligations.RoundTrip : Prop :=
  ∀ (e1 e2 : Engine) (bytes : List Byte), bytes.length < 2 ^ 64 →
    ∃ e1' e2' stream, runPass e1 (encodeCommands bytes) = some (e1', stream) ∧
      runPass e2 (decodeCommands (headerOf bytes) stream) = some (e2', bytes)

/-! ## The artifact -/

/-- R250, R253: parsing a file that a header and a stream make gives them back. -/
def Obligations.ParsingAFileGivesItsHeader : Prop :=
  ∀ (h : Header) (stream : List Byte), h.entries.length ≤ 256 → parseFile (headerBytes h ++ stream) = .ok (h, stream)

/-- R254: the frequencies of a file's header sum to its total, the length of the sequence. -/
def Obligations.HeaderFrequenciesSumToTheTotal : Prop :=
  ∀ bytes : List Byte, bytes.length < 2 ^ 64 →
    ((headerOf bytes).entries.map fun p => p.2.toNat).sum = bytes.length ∧ (headerOf bytes).total.toNat = bytes.length

/-! ## Engine steps -/

/-- R149: E-PUSH moves the first item of L to the end of OUT while OUT has room; at a full OUT the engine holds. -/
def Obligations.PushMovesOneItemOrHolds : Prop :=
  ∀ (s : State) (rest : List Event) (p : Pending) (b : Byte) (l : List Byte), EngineMoves s rest → s.rst = false →
    s.pending = some p → itemsOf p.items = b :: l →
      (s.out.length < s.params.outDepth → ∃ items, itemsOf items = l ∧
        step s = .next { s with agenda := rest, out := s.out ++ [b], pending := some ⟨p.next, items⟩ }) ∧
      (s.params.outDepth ≤ s.out.length → step s = .next { s with agenda := rest })

/-- R150: E-DONE commits every engine-state element at once, frees the latch and sets DONE; of a command other than CLEAR it
leaves OUT and OVERRUN as they are. -/
def Obligations.DoneCommitsTheWholeEngineState : Prop :=
  ∀ (s : State) (rest : List Event) (p : Pending) (c : Command), EngineMoves s rest → s.rst = false →
    s.pending = some p → itemsOf p.items = [] → s.cur = some c →
      step s = .next { s with
        agenda := rest, engine := p.next, pending := none, cur := none, busy := false, intDone := true
        out := if c.word = 0x00000001 then [] else s.out
        overrun := if c.word = 0x00000001 then false else s.overrun }

/-- R311, R92: with room in OUT, a command other than CLEAR that succeeds takes 2 + len(L) engine steps: then its engine state
is committed, its items stand at the end of OUT in order, and BUSY is 0. -/
def Obligations.CommandCompletesInTwoPlusItemsSteps : Prop :=
  ∀ (s : State) (c : Command) (i : Instr) (e' : Engine) (items : List Run), s.agenda = [] → ExecReady s c →
    decode c.word = .ok i → i ≠ .clear → execCommand s.engine i c.operand = .ok e' items →
    s.out.length + (itemsOf items).length ≤ s.params.outDepth →
      Host.Core.run Sys2Proof.core (2 + (itemsOf items).length) s = .next { s with
        engine := e', pending := none, cur := none, busy := false, intDone := true, out := s.out ++ itemsOf items }

/-- R53, R91: the engine state changes only at a reset (`rst` asserted, or CTRL.SOFT_RESET), at error entry, which an E-EXEC takes,
and at E-DONE. -/
def Obligations.EngineStateChangesOnlyAtCommit : Prop :=
  ∀ s t : State, step s = .next t →
    t.engine = s.engine ∨ IsReset s t ∨
    (∃ rest code c, EngineMoves s rest ∧ ExecReady s c ∧ t = errorEntry code c.word { s with agenda := rest }) ∨
    (∃ rest p, EngineMoves s rest ∧ s.rst = false ∧ s.pending = some p ∧ itemsOf p.items = [] ∧ t.engine = p.next ∧
      t.busy = false ∧ t.intDone = true)

/-- R281: one engine step sets at most one of DONE and ERR. -/
def Obligations.OneStepSetsDoneOrErrNotBoth : Prop :=
  ∀ (s t : State) (rest : List Event), EngineMoves s rest → step s = .next t →
    (t.intDone = s.intDone ∧ t.intErr = s.intErr) ∨ (t.intDone = true ∧ t.intErr = s.intErr) ∨
    (t.intDone = s.intDone ∧ t.intErr = true)

/-- R32, R35, R36, R50: the engine's move never writes ARG0, ARG1 or INT_EN, and never clears an INT_PEND flag; and no step
whatever changes the parameters (which the model keeps in State: notes/assumptions/2.md). -/
def Obligations.EngineLeavesHostRegistersAlone : Prop :=
  ∀ (s t : State), step s = .next t →
    t.params = s.params ∧
    ∀ rest, EngineMoves s rest →
      t.arg0 = s.arg0 ∧ t.arg1 = s.arg1 ∧ t.intEn = s.intEn ∧ (s.intDone = true → t.intDone = true) ∧
      (s.intErr = true → t.intErr = true)

/-! ## Host accesses -/

/-- R86: an access that is not an aligned 32-bit access does nothing; a read of that kind returns 0. -/
def Obligations.OtherAccessesDoNotAct : Prop :=
  ∀ (s : State) (rest : List Event) (off : BitVec 8) (size : Nat) (v : Word), s.rst = false →
    size ≠ 4 ∨ off.toNat % 4 ≠ 0 →
      (s.agenda = .host (.read (s.params.huffBase + off.toNat) size) :: rest →
        step s = .next { s with agenda := rest, rdata := 0 }) ∧
      (s.agenda = .host (.write (s.params.huffBase + off.toNat) size v) :: rest → step s = .next { s with agenda := rest })

/-- R33 to R39, R140, R144: a 32-bit read at an aligned offset returns the register at that offset, written out for each offset of
the register map, and changes nothing else; at OUT_DATA it pops the head of OUT, which it returns with bit 31 set. (The bits of
STATUS, CONFIG, ACC_STATE, CODE_LEN and CODE_BITSk are in `ComputedRegisterFields`.) -/
def Obligations.ReadReturnsTheRegister : Prop :=
  ∀ (s : State) (rest : List Event) (off : BitVec 8), s.rst = false → off.toNat % 4 = 0 →
    s.agenda = .host (.read (s.params.huffBase + off.toNat) 4) :: rest →
      (off ≠ 0x1C → step s = .next { s with
        agenda := rest
        rdata :=
          match off.toNat with
          | 0x00 => 0x48554646#32
          | 0x04 => configWord s.params
          | 0x08 => 0#32
          | 0x0C => statusWord s
          | 0x10 => 0#32
          | 0x14 => s.arg0
          | 0x18 => s.arg1
          | 0x20 => BitVec.ofNat 32 s.out.length
          | 0x24 => s.engine.count.extractLsb' 0 32
          | 0x28 => s.engine.count.extractLsb' 32 32
          | 0x2C => s.engine.total.extractLsb' 0 32
          | 0x30 => s.engine.total.extractLsb' 32 32
          | 0x34 => 0#29 ++ BitVec.ofBool (!s.out.isEmpty) ++ BitVec.ofBool s.intErr ++ BitVec.ofBool s.intDone
          | 0x38 => 0#29 ++ s.intEn
          | 0x3C => s.engine.errCmd
          | 0x40 => accState s.engine
          | 0x44 => codeLenWord s.engine
          | 0x48 => codeBitsWord s.engine 0
          | 0x4C => codeBitsWord s.engine 1
          | 0x50 => codeBitsWord s.engine 2
          | 0x54 => codeBitsWord s.engine 3
          | 0x58 => codeBitsWord s.engine 4
          | 0x5C => codeBitsWord s.engine 5
          | 0x60 => codeBitsWord s.engine 6
          | 0x64 => codeBitsWord s.engine 7
          | _ => 0#32 }) ∧
      (off = 0x1C → s.out = [] → step s = .next { s with agenda := rest, rdata := 0 }) ∧
      (∀ b l, off = 0x1C → s.out = b :: l →
        step s = .next { s with agenda := rest, rdata := 0x80000000#32 ||| b.setWidth 32, out := l })

/-- R33, R34, R35, R38, R39: the fields of STATUS, CONFIG, ACC_STATE, CODE_LEN and CODE_BITSk, the reserved ones
0. -/
def Obligations.ComputedRegisterFields : Prop :=
  ∀ s : State,
    (statusWord s).getLsbD 0 = s.busy ∧ (statusWord s).extractLsb' 1 3 = s.engine.mode.bits ∧
    (statusWord s).getLsbD 4 = s.overrun ∧
    (statusWord s).getLsbD 5 = (decide (s.engine.mode = .dec) && decide (s.engine.count = s.engine.total)) ∧
    (statusWord s).extractLsb' 6 2 = 0 ∧ (statusWord s).extractLsb' 8 4 = s.engine.errCode.bits ∧
    (statusWord s).extractLsb' 12 4 = 0 ∧ (statusWord s).extractLsb' 16 9 = s.engine.nsym ∧
    (statusWord s).extractLsb' 25 7 = 0 ∧
    (configWord s.params).toNat = 0x08 * 2 ^ 24 + s.params.outDepth * 2 ^ 8 + 0xFF ∧
    accState s.engine = ((s.engine.accCnt.setWidth 32) <<< 8) ||| s.engine.acc.setWidth 32 ∧
    (codeLenWord s.engine).getLsbD 31 = s.engine.qvalid ∧ (codeLenWord s.engine).extractLsb' 24 7 = 0 ∧
    (codeLenWord s.engine).extractLsb' 16 8 = s.engine.qsym ∧ (codeLenWord s.engine).extractLsb' 9 7 = 0 ∧
    (codeLenWord s.engine).extractLsb' 0 9 = s.engine.qlen ∧
    ∀ (k : Fin 8) (j : Nat), j < 32 → (codeBitsWord s.engine k).getLsbD j = s.engine.qbits.getLsbD (32 * k.val + j)

/-- R143: a CMD write: dropped with OVERRUN and INT_PEND.ERR while BUSY; discarded in MODE = ERROR unless it is CLEAR; else latched
with the operand {ARG1, ARG0} sampled now. -/
def Obligations.CmdWriteIssuesDropsOrDiscards : Prop :=
  ∀ (s : State) (rest : List Event) (w : Word), s.rst = false →
    s.agenda = .host (.write (s.params.huffBase + 0x10) 4 w) :: rest →
      (s.busy = true → step s = .next { s with agenda := rest, overrun := true, intErr := true }) ∧
      (s.busy = false → s.engine.mode = .error → w ≠ 0x00000001 → step s = .next { s with agenda := rest }) ∧
      (s.busy = false → s.engine.mode ≠ .error ∨ w = 0x00000001 →
        step s = .next { s with agenda := rest, busy := true, cur := some ⟨w, s.arg1 ++ s.arg0⟩ })

/-- R145: an INT_PEND write clears the flags written 1 and nothing else. -/
def Obligations.IntPendWriteOneToClear : Prop :=
  ∀ (s : State) (rest : List Event) (v : Word), s.rst = false →
    s.agenda = .host (.write (s.params.huffBase + 0x34) 4 v) :: rest →
      step s = .next { s with
        agenda := rest
        intDone := if v.getLsbD 0 = true then false else s.intDone
        intErr := if v.getLsbD 1 = true then false else s.intErr }

/-- R147, R280: ARG0, ARG1 and INT_EN writes, at any time; INT_EN changes irq at once. -/
def Obligations.ArgAndIntEnWrites : Prop :=
  ∀ (s : State) (rest : List Event) (v : Word), s.rst = false →
    (s.agenda = .host (.write (s.params.huffBase + 0x14) 4 v) :: rest → step s = .next { s with agenda := rest, arg0 := v }) ∧
    (s.agenda = .host (.write (s.params.huffBase + 0x18) 4 v) :: rest → step s = .next { s with agenda := rest, arg1 := v }) ∧
    (s.agenda = .host (.write (s.params.huffBase + 0x38) 4 v) :: rest →
      ∃ t, step s = .next t ∧ t = { s with agenda := rest, intEn := v.extractLsb' 0 3 } ∧
        irq t = ((s.intDone && v.getLsbD 0) || (s.intErr && v.getLsbD 1) || (!s.out.isEmpty && v.getLsbD 2)))

/-- R142: writes to read-only registers and reserved offsets, and to the reserved bits of writable registers, are ignored. -/
def Obligations.ReadOnlyWritesAreIgnored : Prop :=
  (∀ (s : State) (rest : List Event) (off : BitVec 8) (v : Word), s.rst = false →
    s.agenda = .host (.write (s.params.huffBase + off.toNat) 4 v) :: rest →
    off ∉ [0x08#8, 0x10#8, 0x14#8, 0x18#8, 0x34#8, 0x38#8] → step s = .next { s with agenda := rest }) ∧
  ∀ (s : State) (v v' : Word),
    (v.getLsbD 0 = v'.getLsbD 0 → regWrite v s .ctrl = regWrite v' s .ctrl) ∧
    (v.extractLsb' 0 2 = v'.extractLsb' 0 2 → regWrite v s .intPend = regWrite v' s .intPend) ∧
    (v.extractLsb' 0 3 = v'.extractLsb' 0 3 → regWrite v s .intEn = regWrite v' s .intEn)

/-- R146, R301, R56: a CTRL write with bit 0 set resets every element of R56 at once, whatever the mode and BUSY are, and keeps
ID, CONFIG and the bus; with bit 0 clear it does nothing. CTRL reads 0. (That the read port keeps its data is the model's choice:
notes/assumptions/11.md.) -/
def Obligations.SoftResetResetsEveryElement : Prop :=
  (∀ s : State, regValue s (regAt 0x08) = 0) ∧
  ∀ (s : State) (rest : List Event) (v : Word), s.rst = false →
    s.agenda = .host (.write (s.params.huffBase + 0x08) 4 v) :: rest →
      (v.getLsbD 0 = true → step s = .next {
        engine := {
          mode := .load, node := [], pl := [], root := none, present := 0, nsym := 0
          code := List.replicate 256 ⟨false, 0, 0⟩
          acc := 0, accCnt := 0, pos := none, count := 0, total := 0, errCode := .noError, errCmd := 0
          qsym := 0, qvalid := false, qlen := 0, qbits := 0 }
        busy := false, cur := none, pending := none, out := [], overrun := false, intDone := false, intErr := false
        intEn := 0, arg0 := 0, arg1 := 0, params := s.params, rst := false, rdata := s.rdata, agenda := rest }) ∧
      (v.getLsbD 0 = false → step s = .next { s with agenda := rest })

/-- R300, R301: asserting `rst` resets the block; while it is asserted no access is taken and no engine step runs; releasing it
changes nothing else. (That an access made meanwhile is dropped is the model's reading: notes/assumptions/4.md.) -/
def Obligations.RstHoldsTheBlockInReset : Prop :=
  ∀ (s : State) (rest : List Event),
    (s.agenda = .rst true :: rest → step s = .next { resetBlock s with rst := true, agenda := rest }) ∧
    (s.agenda = .rst false :: rest → step s = .next { s with rst := false, agenda := rest }) ∧
    (s.rst = true → (∀ a, s.agenda = .host a :: rest → step s = .next { s with agenda := rest }) ∧
      (EngineMoves s rest → step s = .next { s with agenda := rest }))

/-- R56: after reset every register reads 0, except ID and CONFIG, and irq is 0. -/
def Obligations.RegistersAfterReset : Prop :=
  ∀ r : Reg, irq State.reset = false ∧ regValue State.reset r =
    match r with
    | .id => 0x48554646#32
    | .config => configWord State.reset.params
    | _ => 0#32

/-- R280: irq is 1 exactly when some source is both pending and enabled. -/
def Obligations.IrqIsPendingAndEnabled : Prop :=
  ∀ s : State, irq s = true ↔ ∃ k, k < 3 ∧ (intPend s).getLsbD k = true ∧ s.intEn.getLsbD k = true

/-! ## Errors and invariants -/

/-- R275, R277: MODE = ERROR and the error record stay until a reset (`rst` asserted, or CTRL.SOFT_RESET) or the E-DONE of CLEAR,
which leaves the engine state of R56. -/
def Obligations.ErrorModeIsSticky : Prop :=
  ∀ s t : State, s.Inv → s.engine.mode = .error → step s = .next t →
    t.engine = s.engine ∨ IsReset s t ∨ ∃ a, IsDone ⟨0x00000001, a⟩ Engine.reset s t

/-- R276, R49: OVERRUN stays 1 until a reset (`rst` asserted, or CTRL.SOFT_RESET) or the E-DONE of CLEAR. -/
def Obligations.OverrunIsSticky : Prop :=
  ∀ s t : State, s.overrun = true → step s = .next t → t.overrun = false →
    IsReset s t ∨ ∃ a e, IsDone ⟨0x00000001, a⟩ e s t

/-- Reset meets the invariant, whatever the parameters and whatever is scheduled (R56). -/
def Obligations.ResetMeetsTheInvariant : Prop :=
  ∀ (p : Params) (agenda : List Event), ({ State.reset with params := p, agenda := agenda } : State).Inv

/-- R40 to R53, R179, R180, R204, R226: every step keeps the invariant. -/
def Obligations.StepKeepsTheInvariant : Prop :=
  ∀ s t : State, s.Inv → step s = .next t → t.Inv

/-- R10, R176, R226: from a state that meets the invariant no step faults or refuses, but for a host access outside the
window, where the fault is the model's choice (notes/assumptions/3.md). -/
def Obligations.NoReachableStateFaults : Prop :=
  ∀ s : State, s.Inv → InWindow s → ∃ t, step s = .next t
end

