-- ==== Sys2Proof/Laws/Bits.lean ====
section
/-! SUPPORT. Bit sequences: paths and CBITS, stream bytes, single bits of a byte (spec rules R44, R177, R200, R220). -/

namespace Sys2Proof.Machine

theorem getLsbD_pathBits (path : List Bool) (i : Nat) (hi : i < maxCodeLen) :
    (pathBits path).getLsbD i = path.getD i false := by
  simp [pathBits, hi, BitVec.getLsbD_ofBoolListLE]

/-- A path of at most 255 bits is read back from CLEN and CBITS (R44, R177). -/
theorem path_pathBits (v : Bool) (path : List Bool) (h : path.length ≤ maxCodeLen) :
    Code.path ⟨v, BitVec.ofNat 8 path.length, pathBits path⟩ = path := by
  have hl : (BitVec.ofNat 8 path.length).toNat = path.length := by
    simp only [BitVec.toNat_ofNat]
    have : maxCodeLen = 255 := rfl
    omega
  apply List.ext_getElem
  · simp [Code.path, hl]
  · intro i h1 h2
    have hi : i < maxCodeLen := by omega
    simp [Code.path, getLsbD_pathBits path i hi, h2]

/-- The bits of a code beyond its length are 0 (R44). -/
theorem pathBits_lt (path : List Bool) : (pathBits path).toNat < 2 ^ path.length := by
  have h1 : (pathBits path).toNat ≤ (BitVec.ofBoolListLE path).toNat := by
    simp only [pathBits, BitVec.toNat_setWidth]
    exact Nat.mod_le _ _
  exact Nat.lt_of_le_of_lt h1 (BitVec.ofBoolListLE path).isLt

@[simp] theorem byteBits_length (v : Byte) : (byteBits v).length = 8 := by simp [byteBits]

@[simp] theorem path_length (c : Code) : c.path.length = c.len.toNat := by simp [Code.path]

theorem path_absent : Code.absent.path = [] := rfl

theorem getLsbD_putBit (v : Byte) (k i : Nat) (b : Bool) (hk : k < 8) :
    (putBit v k b).getLsbD i = if i = k then b else v.getLsbD i := by
  have hlt : 8 ≤ i → v.getLsbD i = false := fun h => BitVec.getLsbD_of_ge v i h
  cases b <;> simp only [putBit, if_true, BitVec.getLsbD_or, BitVec.getLsbD_and, BitVec.getLsbD_not,
    BitVec.getLsbD_twoPow, Bool.false_eq_true, if_false]
  · by_cases h : i = k
    · subst h; simp [hk]
    · by_cases h8 : i < 8
      · simp [h8, h, Ne.symm h]
      · simp [h8, h, hlt (by omega)]
  · by_cases h : i = k
    · subst h; simp [hk]
    · simp [h, Ne.symm h]

end Sys2Proof.Machine
end

