-- ==== Sys2Proof/Laws/Tree.lean ====
section
/-! SUPPORT. The arena, the priority list and the merges: what `insert`, `merge` and `mergeAll` can do (spec rules R170 to
R176, R179), and that on trees as values they are the plain merge algorithm. -/

namespace Sys2Proof.Machine

/-! Reads of the arena. -/

theorem nodeAt_append_lt (nodes : List Node) (nd : Node) (k : NodeIdx) (h : k.val < nodes.length) :
    nodeAt (nodes ++ [nd]) k = nodeAt nodes k := by
  simp [nodeAt, List.getElem?_append_left h]

theorem nodeAt_append_eq (nodes : List Node) (nd : Node) (k : NodeIdx) (h : k.val = nodes.length) :
    nodeAt (nodes ++ [nd]) k = nd := by
  simp [nodeAt, h]

theorem nodeAt_of_ge (nodes : List Node) (k : NodeIdx) (h : nodes.length ≤ k.val) : nodeAt nodes k = Node.free := by
  simp [nodeAt, List.getElem?_eq_none h]

theorem lt_of_kind {nodes : List Node} {k : NodeIdx} (h : (nodeAt nodes k).kind ≠ .free) : k.val < nodes.length := by
  by_contra hn
  rw [nodeAt_of_ge nodes k (by omega)] at h
  exact h rfl

/-! Keys. -/

theorem keyLe_iff (m n : Node) : keyLe m n = true ↔ keyLt m n ∨ (m.freq = n.freq ∧ m.data = n.data) := by
  simp only [keyLe, keyLt, Bool.or_eq_true, decide_eq_true_eq, Bool.and_eq_true, beq_iff_eq]
  rw [← BitVec.toNat_inj (x := m.data)]
  constructor
  · rintro (h | ⟨h, h'⟩)
    · exact .inl (.inl h)
    · rcases Nat.lt_or_eq_of_le h' with h' | h'
      · exact .inl (.inr ⟨h, h'⟩)
      · exact .inr ⟨h, h'⟩
  · rintro ((h | ⟨h, h'⟩) | ⟨h, h'⟩)
    · exact .inl h
    · exact .inr ⟨h, h'.le⟩
    · exact .inr ⟨h, h'.le⟩

theorem not_keyLe {m n : Node} (h : keyLe m n = false) : keyLt n m := by
  simp only [keyLe, Bool.or_eq_false_iff, decide_eq_false_iff_not, Bool.and_eq_false_iff, beq_eq_false_iff_ne] at h
  simp only [keyLt]
  obtain ⟨h1, h2⟩ := h
  by_cases hf : m.freq = n.freq
  · refine .inr ⟨hf.symm, ?_⟩
    rcases h2 with h2 | h2
    · exact absurd hf h2
    · omega
  · have : m.freq.toNat ≠ n.freq.toNat := fun h => hf (BitVec.eq_of_toNat_eq h)
    exact .inl (by omega)

theorem keyLt_trans {a b c : Node} (h1 : keyLt a b) (h2 : keyLt b c) : keyLt a c := by
  simp only [keyLt] at *
  rcases h1 with h1 | ⟨e1, h1⟩ <;> rcases h2 with h2 | ⟨e2, h2⟩
  · exact .inl (by omega)
  · exact .inl (by rw [← e2]; exact h1)
  · exact .inl (by rw [e1]; exact h2)
  · exact .inr ⟨e1.trans e2, by omega⟩

theorem keyLt_irrefl (a : Node) : ¬ keyLt a a := by
  simp [keyLt]

/-! Insert (R170). -/

theorem insert_perm (nodes : List Node) (pl : List NodeIdx) (n : NodeIdx) : (insert nodes pl n).Perm (n :: pl) := by
  induction pl with
  | nil => exact .refl _
  | cons x rest ih =>
    simp only [insert]
    split
    · exact (List.Perm.cons x ih).trans (List.Perm.swap n x rest)
    · exact .refl _

@[simp] theorem insert_length (nodes : List Node) (pl : List NodeIdx) (n : NodeIdx) :
    (insert nodes pl n).length = pl.length + 1 := by
  simpa using (insert_perm nodes pl n).length_eq

@[simp] theorem mem_insert (nodes : List Node) (pl : List NodeIdx) (n x : NodeIdx) :
    x ∈ insert nodes pl n ↔ x = n ∨ x ∈ pl := by
  rw [(insert_perm nodes pl n).mem_iff, List.mem_cons]

/-- Insert keeps a list strictly sorted where no listed key equals the new one (R41, R170). -/
theorem insert_sorted (nodes : List Node) (pl : List NodeIdx) (n : NodeIdx)
    (hs : pl.Pairwise fun j k => keyLt (nodeAt nodes j) (nodeAt nodes k))
    (hd : ∀ x ∈ pl, (nodeAt nodes x).data ≠ (nodeAt nodes n).data) :
    (insert nodes pl n).Pairwise fun j k => keyLt (nodeAt nodes j) (nodeAt nodes k) := by
  induction pl with
  | nil => simp [insert]
  | cons x rest ih =>
    rw [List.pairwise_cons] at hs
    simp only [insert]
    split
    · rename_i hle
      rw [List.pairwise_cons]
      refine ⟨fun y hy => ?_, ih hs.2 fun y hy => hd y (List.mem_cons_of_mem x hy)⟩
      rcases (mem_insert nodes rest n y).mp hy with rfl | hy
      · rcases (keyLe_iff _ _).mp hle with h | ⟨_, h⟩
        · exact h
        · exact absurd h (hd x List.mem_cons_self)
      · exact hs.1 y hy
    · rename_i hle
      have hlt := not_keyLe (Bool.not_eq_true _ ▸ hle)
      rw [List.pairwise_cons, List.pairwise_cons]
      refine ⟨fun y hy => ?_, hs⟩
      rcases List.mem_cons.mp hy with rfl | hy
      · exact hlt
      · exact keyLt_trans hlt (hs.1 y hy)

/-- Insert reads the arena only at the nodes it places. -/
theorem insert_congr (nodes nodes' : List Node) (pl : List NodeIdx) (n : NodeIdx)
    (h : ∀ x ∈ pl, nodeAt nodes x = nodeAt nodes' x) (hn : nodeAt nodes n = nodeAt nodes' n) :
    insert nodes pl n = insert nodes' pl n := by
  induction pl with
  | nil => rfl
  | cons x rest ih =>
    simp only [insert, h x List.mem_cons_self, hn, ih fun y hy => h y (List.mem_cons_of_mem x hy)]

theorem freqSum_cons (nodes : List Node) (k : NodeIdx) (pl : List NodeIdx) :
    freqSum nodes (k :: pl) = (nodeAt nodes k).freq.toNat + freqSum nodes pl := by simp [freqSum]

theorem freqSum_insert (nodes : List Node) (pl : List NodeIdx) (n : NodeIdx) :
    freqSum nodes (insert nodes pl n) = (nodeAt nodes n).freq.toNat + freqSum nodes pl := by
  rw [← freqSum_cons]
  exact ((insert_perm nodes pl n).map _).sum_eq

theorem freqSum_congr (nodes nodes' : List Node) (pl : List NodeIdx)
    (h : ∀ x ∈ pl, nodeAt nodes x = nodeAt nodes' x) : freqSum nodes pl = freqSum nodes' pl := by
  simp only [freqSum]
  congr 1
  exact List.map_congr_left fun x hx => by rw [h x hx]

/-! Merge (R175). -/

/-- A merge that has room and whose sum fits 72 bits: the parent is written at NNODES and inserted. -/
theorem merge_ok (nodes : List Node) (a b : NodeIdx) (rest : List NodeIdx) (hroom : nodes.length < nNodes)
    (hsum : (nodeAt nodes a).freq.toNat + (nodeAt nodes b).freq.toNat < 2 ^ 72) :
    ∃ nd : Node, nd.kind = .internal ∧ nd.left = a ∧ nd.right = b ∧ nd.data = (nodeAt nodes a).data ∧
      nd.freq.toNat = (nodeAt nodes a).freq.toNat + (nodeAt nodes b).freq.toNat ∧
      merge nodes (a :: b :: rest) = .ok (nodes ++ [nd], insert (nodes ++ [nd]) rest ⟨nodes.length, hroom⟩) := by
  refine ⟨⟨.internal, (nodeAt nodes a).freq + (nodeAt nodes b).freq, (nodeAt nodes a).data, a, b⟩, rfl, rfl, rfl, rfl,
    ?_, ?_⟩
  · simp only [BitVec.toNat_add]
    exact Nat.mod_eq_of_lt hsum
  · simp only [merge, parentOf, if_pos hsum, allocate, dif_pos hroom]

/-- What holds between two merges of a BUILD over n leaves that started from the arena `base`. -/
structure Merging (base : List Node) (n : Nat) (nodes : List Node) (pl : List NodeIdx) : Prop where
  leaf : ∀ k : NodeIdx, k.val < n → nodeAt nodes k = nodeAt base k ∧ (nodeAt base k).kind = .leaf
  internal : ∀ k : NodeIdx, n ≤ k.val → k.val < nodes.length →
    (nodeAt nodes k).kind = .internal ∧ (nodeAt nodes k).left.val < k.val ∧ (nodeAt nodes k).right.val < k.val ∧
    (nodeAt nodes k).left ≠ (nodeAt nodes k).right ∧
    (nodeAt nodes k).freq.toNat =
      (nodeAt nodes (nodeAt nodes k).left).freq.toNat + (nodeAt nodes (nodeAt nodes k).right).freq.toNat ∧
    (nodeAt nodes k).data = (nodeAt nodes (nodeAt nodes k).left).data
  nodup : pl.Nodup
  listed : ∀ k ∈ pl, k.val < nodes.length
  owned : ∀ k : NodeIdx, k.val < nodes.length →
    k ∈ pl ∨ ∃ m : NodeIdx, k.val < m.val ∧ m.val < nodes.length ∧ n ≤ m.val ∧
      ((nodeAt nodes m).left = k ∨ (nodeAt nodes m).right = k)
  size : nodes.length + pl.length = 2 * n
  last : pl ≠ [] → ∃ k ∈ pl, k.val + 1 = nodes.length
  sorted : pl.Pairwise fun j k => keyLt (nodeAt nodes j) (nodeAt nodes k)
  distinct : ∀ j ∈ pl, ∀ k ∈ pl, (nodeAt nodes j).data = (nodeAt nodes k).data → j = k
  small : n ≤ 256
  grown : n ≤ nodes.length
  light : freqSum nodes pl < 2 ^ 72

/-- One merge keeps it (R175, R179). -/
theorem merge_keeps {base : List Node} {n : Nat} {nodes : List Node} {pl : List NodeIdx}
    (h : Merging base n nodes pl) (hl : 1 < pl.length) :
    ∃ nodes' pl', merge nodes pl = .ok (nodes', pl') ∧ Merging base n nodes' pl' ∧ pl'.length + 1 = pl.length ∧
      freqSum nodes' pl' = freqSum nodes pl := by
  match pl, h, hl with
  | a :: b :: rest, h, _ =>
    have hsize := h.size
    have hsmall := h.small
    simp only [List.length_cons] at hsize
    have hroom : nodes.length < nNodes := by show nodes.length < 511; omega
    have hlight := h.light
    rw [freqSum_cons, freqSum_cons] at hlight
    have hnd := h.nodup
    simp only [List.nodup_cons, List.mem_cons, not_or] at hnd
    obtain ⟨⟨hab, har⟩, hbr, hrest⟩ := hnd
    have ha := h.listed a (by simp)
    have hb := h.listed b (by simp)
    have hr : ∀ k ∈ rest, k.val < nodes.length := fun k hk => h.listed k (by simp [hk])
    obtain ⟨nd, hk, hleft, hright, hdata, hfreq, hm⟩ := merge_ok nodes a b rest hroom (by omega)
    have hlt : ∀ k : NodeIdx, k.val < nodes.length → nodeAt (nodes ++ [nd]) k = nodeAt nodes k :=
      fun k hk => nodeAt_append_lt nodes nd k hk
    have hnew : nodeAt (nodes ++ [nd]) ⟨nodes.length, hroom⟩ = nd := nodeAt_append_eq nodes nd _ rfl
    have hnle : n ≤ nodes.length := h.grown
    have hfresh : ∀ k ∈ rest, k ≠ ⟨nodes.length, hroom⟩ := fun k hk he => by
      have := hr k hk; rw [he] at this; exact Nat.lt_irrefl _ this
    have hsum : freqSum (nodes ++ [nd]) (insert (nodes ++ [nd]) rest ⟨nodes.length, hroom⟩) =
        freqSum nodes (a :: b :: rest) := by
      rw [freqSum_insert, hnew, hfreq, freqSum_cons, freqSum_cons,
        freqSum_congr (nodes ++ [nd]) nodes rest fun x hx => hlt x (hr x hx)]
      omega
    refine ⟨_, _, hm, ?_, by simp, hsum⟩
    refine { leaf := ?_, internal := ?_, nodup := ?_, listed := ?_, owned := ?_, size := ?_, last := ?_, sorted := ?_,
             distinct := ?_, small := h.small, grown := ?_, light := ?_ }
    · intro k hkn
      rw [hlt k (by omega)]
      exact h.leaf k hkn
    · intro k hkn hkl
      simp only [List.length_append, List.length_cons, List.length_nil] at hkl
      by_cases hkl' : k.val < nodes.length
      · obtain ⟨h1, h2, h3, h4, h5, h6⟩ := h.internal k hkn hkl'
        rw [hlt k hkl', hlt _ (by omega), hlt _ (by omega)]
        exact ⟨h1, h2, h3, h4, h5, h6⟩
      · have hkv : k.val = nodes.length := by omega
        have : nodeAt (nodes ++ [nd]) k = nd := nodeAt_append_eq nodes nd k hkv
        rw [this, hleft, hright, hlt a ha, hlt b hb]
        exact ⟨hk, by omega, by omega, hab, hfreq, hdata⟩
    · rw [(insert_perm _ _ _).nodup_iff, List.nodup_cons]
      exact ⟨fun hmem => hfresh _ hmem rfl, hrest⟩
    · intro k hkm
      simp only [List.length_append, List.length_cons, List.length_nil]
      rcases (mem_insert _ _ _ _).mp hkm with rfl | hkm
      · simp
      · have := hr k hkm; omega
    · intro k hkl
      simp only [List.length_append, List.length_cons, List.length_nil] at hkl ⊢
      by_cases hkl' : k.val < nodes.length
      · rcases h.owned k hkl' with hmem | ⟨m, hm1, hm2, hm3, hm4⟩
        · simp only [List.mem_cons] at hmem
          rcases hmem with rfl | rfl | hmem
          · exact .inr ⟨⟨nodes.length, hroom⟩, ha, by simp, hnle, .inl (by rw [hnew, hleft])⟩
          · exact .inr ⟨⟨nodes.length, hroom⟩, hb, by simp, hnle, .inr (by rw [hnew, hright])⟩
          · exact .inl ((mem_insert _ _ _ _).mpr (.inr hmem))
        · exact .inr ⟨m, hm1, by omega, hm3, by rw [hlt m hm2]; exact hm4⟩
      · exact .inl ((mem_insert _ _ _ _).mpr (.inl (Fin.ext (by show k.val = nodes.length; omega))))
    · simp only [List.length_append, List.length_cons, List.length_nil, insert_length]
      omega
    · intro _
      exact ⟨⟨nodes.length, hroom⟩, (mem_insert _ _ _ _).mpr (.inl rfl), by simp⟩
    · have hs := h.sorted
      simp only [List.pairwise_cons] at hs
      refine insert_sorted _ _ _ ?_ ?_
      · refine hs.2.2.imp_of_mem ?_
        intro j k hj hk hjk
        rw [hlt j (hr j hj), hlt k (hr k hk)]
        exact hjk
      · intro x hx heq
        rw [hlt x (hr x hx), hnew, hdata] at heq
        have := h.distinct x (by simp [hx]) a (by simp) heq
        subst this
        exact har hx
    · intro j hj k hk' heq
      rcases (mem_insert _ _ _ _).mp hj with rfl | hj <;> rcases (mem_insert _ _ _ _).mp hk' with rfl | hk'
      · rfl
      · rw [hnew, hdata, hlt k (hr k hk')] at heq
        have := h.distinct a (by simp) k (by simp [hk']) heq
        subst this
        exact absurd hk' har
      · rw [hnew, hdata, hlt j (hr j hj)] at heq
        have := h.distinct j (by simp [hj]) a (by simp) heq
        subst this
        exact absurd hj har
      · rw [hlt j (hr j hj), hlt k (hr k hk')] at heq
        exact h.distinct j (by simp [hj]) k (by simp [hk']) heq
    · simp only [List.length_append, List.length_cons, List.length_nil]
      omega
    · rw [hsum]; exact h.light

/-- The loop of R176 ends with at most one node, and keeps what the merges keep. -/
theorem mergeAll_keeps {base : List Node} {n : Nat} (fuel : Nat) :
    ∀ {nodes : List Node} {pl : List NodeIdx}, Merging base n nodes pl → pl.length ≤ fuel + 1 →
      ∃ nodes' pl', mergeAll fuel nodes pl = .ok (nodes', pl') ∧ Merging base n nodes' pl' ∧ pl'.length ≤ 1 ∧
        freqSum nodes' pl' = freqSum nodes pl ∧ (pl' = [] ↔ pl = []) := by
  induction fuel with
  | zero => exact fun {nodes pl} h hl => ⟨nodes, pl, rfl, h, by omega, rfl, Iff.rfl⟩
  | succ fuel ih =>
    intro nodes pl h hl
    by_cases h1 : 1 < pl.length
    · obtain ⟨nodes1, pl1, hm, hk, hlen, hs⟩ := merge_keeps h h1
      obtain ⟨nodes2, pl2, hm2, hk2, hlen2, hs2, he2⟩ := ih hk (by omega)
      refine ⟨nodes2, pl2, by simp [mergeAll, h1, hm, hm2], hk2, hlen2, hs2.trans hs, ?_⟩
      rw [he2, ← List.length_eq_zero_iff, ← List.length_eq_zero_iff]
      omega
    · exact ⟨nodes, pl, by simp [mergeAll, h1], h, by omega, rfl, Iff.rfl⟩

end Sys2Proof.Machine
end

