-- ==== Sys2Proof/Laws/Codes.lean ====
section
/-! SUPPORT. Code generation and BUILD: the walk over the arena is the path search of the tree as a value, and BUILD from a
loaded table succeeds with what `Built` says (spec rules R176, R177, R180). -/

namespace Sys2Proof.Machine

/-- Leaves below n, INTERNAL entries over earlier entries from n on. -/
structure Shaped (n : Nat) (nodes : List Node) : Prop where
  leaf : ∀ k : NodeIdx, k.val < n → (nodeAt nodes k).kind = .leaf
  internal : ∀ k : NodeIdx, n ≤ k.val → k.val < nodes.length →
    (nodeAt nodes k).kind = .internal ∧ (nodeAt nodes k).left.val < k.val ∧ (nodeAt nodes k).right.val < k.val

theorem treeAt_internal (nodes : List Node) (fuel : Nat) (k : NodeIdx) (h : (nodeAt nodes k).kind = .internal) :
    treeAt nodes (fuel + 1) k =
      .node (nodeAt nodes k).freq.toNat (nodeAt nodes k).data (treeAt nodes fuel (nodeAt nodes k).left)
        (treeAt nodes fuel (nodeAt nodes k).right) := by
  simp only [treeAt, h]

/-- How deep the walk from an entry can go, its own turn included. -/
def depthBound (n : Nat) (k : NodeIdx) : Nat := if k.val < n then 1 else k.val - n + 2

theorem depthBound_child {n : Nat} {k c : NodeIdx} (hk : n ≤ k.val) (hc : c.val < k.val) :
    depthBound n c + 1 ≤ depthBound n k := by
  simp only [depthBound]
  split <;> split <;> omega

theorem depthBound_pos (n : Nat) (k : NodeIdx) : 1 ≤ depthBound n k := by
  simp only [depthBound]; split <;> omega

/-- The tree under an entry does not depend on the fuel, once it is enough. -/
theorem treeAt_fuel {n : Nat} {nodes : List Node} (h : Shaped n nodes) (f : Nat) :
    ∀ (g : Nat) (k : NodeIdx), k.val < nodes.length → k.val < f → k.val < g → treeAt nodes f k = treeAt nodes g k := by
  induction f with
  | zero => intro g k _ hf; omega
  | succ f ih =>
    intro g k hk hf hg
    obtain ⟨g, rfl⟩ : ∃ g', g = g' + 1 := ⟨g - 1, by omega⟩
    by_cases hn : k.val < n
    · simp only [treeAt, h.leaf k hn]
    · obtain ⟨h1, h2, h3⟩ := h.internal k (by omega) hk
      simp only [treeAt, h1]
      rw [ih g _ (by omega) (by omega) (by omega), ih g _ (by omega) (by omega) (by omega)]

/-- The same for fuel that covers the depth. -/
theorem treeAt_depth {n : Nat} {nodes : List Node} (h : Shaped n nodes) (f : Nat) :
    ∀ (g : Nat) (k : NodeIdx), k.val < nodes.length → depthBound n k ≤ f → depthBound n k ≤ g →
      treeAt nodes f k = treeAt nodes g k := by
  induction f with
  | zero => intro g k _ hf; have := depthBound_pos n k; omega
  | succ f ih =>
    intro g k hk hf hg
    have := depthBound_pos n k
    obtain ⟨g, rfl⟩ : ∃ g', g = g' + 1 := ⟨g - 1, by omega⟩
    by_cases hn : k.val < n
    · simp only [treeAt, h.leaf k hn]
    · obtain ⟨h1, h2, h3⟩ := h.internal k (by omega) hk
      have hdl := depthBound_child (n := n) (by omega) h2
      have hdr := depthBound_child (n := n) (by omega) h3
      simp only [treeAt, h1]
      rw [ih g _ (by omega) (by omega) (by omega), ih g _ (by omega) (by omega) (by omega)]

/-- A new entry leaves the trees under the earlier ones as they are. -/
theorem treeAt_append {n : Nat} {nodes : List Node} (nd : Node) (h : Shaped n nodes) (f : Nat) :
    ∀ k : NodeIdx, k.val < nodes.length → treeAt (nodes ++ [nd]) f k = treeAt nodes f k := by
  induction f with
  | zero => intro k _; rfl
  | succ f ih =>
    intro k hk
    simp only [treeAt, nodeAt_append_lt nodes nd k hk]
    by_cases hn : k.val < n
    · simp only [h.leaf k hn]
    · obtain ⟨h1, h2, h3⟩ := h.internal k (by omega) hk
      simp only [h1]
      rw [ih _ (by omega), ih _ (by omega)]

/-- The key of the tree under an entry is the entry's key. -/
theorem treeAt_key {n : Nat} {nodes : List Node} (h : Shaped n nodes) (f : Nat) (k : NodeIdx) (hk : k.val < nodes.length) :
    (treeAt nodes (f + 1) k).freq = (nodeAt nodes k).freq.toNat ∧ (treeAt nodes (f + 1) k).data = (nodeAt nodes k).data := by
  by_cases hn : k.val < n
  · simp [treeAt, h.leaf k hn, leafTree, HTree.freq, HTree.data]
  · simp [treeAt, (h.internal k (by omega) hk).1, HTree.freq, HTree.data]

/-! The walk (R177). -/

/-- The entry of a code table for a path (R177). -/
def entryFor (path : List Bool) : Code := ⟨true, BitVec.ofNat 8 path.length, pathBits path⟩

theorem codeAt_set (t : List Code) (s x : Byte) (c : Code) (hl : t.length = nSym) :
    codeAt (t.set s.toNat c) x = if x = s then c else codeAt t x := by
  have hs : s.toNat < t.length := by rw [hl]; exact s.isLt
  simp only [codeAt, List.getElem?_set]
  by_cases h : x = s
  · simp [h, hs]
  · have : s.toNat ≠ x.toNat := fun he => h (BitVec.eq_of_toNat_eq he.symm)
    simp [h, this]

/-- The walk writes, for each symbol, the path the tree as a value gives it, and nothing else (R177). -/
theorem walkCodes_spec {n : Nat} {nodes : List Node} (h : Shaped n nodes) (fuel : Nat) :
    ∀ (r : NodeIdx) (path : List Bool) (t : List Code), r.val < nodes.length → depthBound n r ≤ fuel → t.length = nSym →
      ∃ t', walkCodes nodes fuel r path t = .ok t' ∧ t'.length = nSym ∧
        ∀ s, codeAt t' s =
          match (treeAt nodes fuel r).codeOf s with
          | some q => entryFor (path ++ q)
          | none => codeAt t s := by
  induction fuel with
  | zero => intro r path t _ hd; have := depthBound_pos n r; omega
  | succ fuel ih =>
    intro r path t hr hd ht
    by_cases hn : r.val < n
    · refine ⟨_, by simp only [walkCodes, h.leaf r hn]; rfl, by simpa using ht, fun s => ?_⟩
      rw [codeAt_set t _ s _ ht]
      simp only [treeAt, h.leaf r hn, leafTree, HTree.codeOf]
      by_cases hs : s = (nodeAt nodes r).data
      · simp [hs, entryFor]
      · simp [hs, Ne.symm hs]
    · obtain ⟨hk, hl, hrt⟩ := h.internal r (by omega) hr
      have hdl := depthBound_child (n := n) (by omega) hl
      have hdr := depthBound_child (n := n) (by omega) hrt
      obtain ⟨t1, hw1, hl1, hc1⟩ := ih (nodeAt nodes r).left (path ++ [false]) t (by omega) (by omega) ht
      obtain ⟨t2, hw2, hl2, hc2⟩ := ih (nodeAt nodes r).right (path ++ [true]) t1 (by omega) (by omega) hl1
      refine ⟨t2, by simp only [walkCodes, hk, hw1, hw2], hl2, fun s => ?_⟩
      rw [hc2 s]
      simp only [treeAt, hk, HTree.codeOf]
      cases hq : (treeAt nodes fuel (nodeAt nodes r).right).codeOf s with
      | some q => simp
      | none =>
        rw [hc1 s]
        cases hq' : (treeAt nodes fuel (nodeAt nodes r).left).codeOf s <;> simp

/-- A path of the tree as a value is a path of the arena, to the symbol's leaf (R177). -/
theorem codeOf_follow {n : Nat} {nodes : List Node} (h : Shaped n nodes) (fuel : Nat) :
    ∀ (r : NodeIdx) (s : Byte) (q : List Bool), r.val < nodes.length → depthBound n r ≤ fuel →
      (treeAt nodes fuel r).codeOf s = some q →
      q.length < fuel ∧ ∃ m : NodeIdx, follow nodes r q = some m ∧ m.val < n ∧ (nodeAt nodes m).data = s := by
  induction fuel with
  | zero => intro r s q _ hd; have := depthBound_pos n r; omega
  | succ fuel ih =>
    intro r s q hr hd hq
    by_cases hn : r.val < n
    · simp only [treeAt, h.leaf r hn, leafTree, HTree.codeOf] at hq
      split at hq
      · rename_i hs
        simp only [Option.some.injEq] at hq
        subst hq
        exact ⟨by simp, r, rfl, hn, hs⟩
      · cases hq
    · obtain ⟨hk, hl, hrt⟩ := h.internal r (by omega) hr
      have hdl := depthBound_child (n := n) (by omega) hl
      have hdr := depthBound_child (n := n) (by omega) hrt
      simp only [treeAt, hk, HTree.codeOf] at hq
      cases hqr : (treeAt nodes fuel (nodeAt nodes r).right).codeOf s with
      | some p =>
        rw [hqr] at hq
        simp only [Option.some.injEq] at hq
        subst hq
        obtain ⟨h1, m, hm, hmn, hms⟩ := ih _ s p (by omega) (by omega) hqr
        exact ⟨by simpa using h1, m, by simpa [follow, hk, childOf] using hm, hmn, hms⟩
      | none =>
        rw [hqr] at hq
        simp only [Option.map_eq_some_iff] at hq
        obtain ⟨p, hp, rfl⟩ := hq
        obtain ⟨h1, m, hm, hmn, hms⟩ := ih _ s p (by omega) (by omega) hp
        exact ⟨by simpa using h1, m, by simpa [follow, hk, childOf] using hm, hmn, hms⟩

/-- Every leaf that a path of the arena reaches has a code in the tree as a value. -/
theorem codeOf_of_follow {n : Nat} {nodes : List Node} (h : Shaped n nodes) (fuel : Nat) :
    ∀ (r : NodeIdx) (q : List Bool) (m : NodeIdx), r.val < nodes.length → depthBound n r ≤ fuel →
      follow nodes r q = some m → m.val < n → ((treeAt nodes fuel r).codeOf (nodeAt nodes m).data).isSome = true := by
  induction fuel with
  | zero => intro r q m _ hd; have := depthBound_pos n r; omega
  | succ fuel ih =>
    intro r q m hr hd hq hm
    by_cases hn : r.val < n
    · have hk := h.leaf r hn
      cases q with
      | nil =>
        simp only [follow, Option.some.injEq] at hq
        subst hq
        simp [treeAt, hk, leafTree, HTree.codeOf]
      | cons b q => simp [follow, hk] at hq
    · obtain ⟨hk, hl, hrt⟩ := h.internal r (by omega) hr
      have hdl := depthBound_child (n := n) (by omega) hl
      have hdr := depthBound_child (n := n) (by omega) hrt
      simp only [treeAt, hk, HTree.codeOf]
      cases q with
      | nil =>
        simp only [follow, Option.some.injEq] at hq
        subst hq
        omega
      | cons b q =>
        simp only [follow, hk, if_true] at hq
        cases b with
        | true =>
          have := ih _ q m (by simpa [childOf] using (by omega : (nodeAt nodes r).right.val < nodes.length))
            (by omega) (by simpa [childOf] using hq) hm
          cases hc : (treeAt nodes fuel (nodeAt nodes r).right).codeOf (nodeAt nodes m).data with
          | some p => simp
          | none => rw [hc] at this; simp at this
        | false =>
          have := ih _ q m (by simpa [childOf] using (by omega : (nodeAt nodes r).left.val < nodes.length))
            (by omega) (by simpa [childOf] using hq) hm
          cases hc : (treeAt nodes fuel (nodeAt nodes r).right).codeOf (nodeAt nodes m).data with
          | some p => simp
          | none => simpa using this

theorem HTree.mem_syms_of_codeOf (t : HTree) (s : Byte) : (t.codeOf s).isSome = true ↔ s ∈ t.syms := by
  induction t with
  | leaf f x => simp only [HTree.codeOf, HTree.syms, List.mem_singleton, eq_comm (a := s)]; split <;> simp [*]
  | node f d l r ihl ihr =>
    simp only [HTree.codeOf, HTree.syms, List.mem_append, ← ihl, ← ihr]
    cases r.codeOf s <;> simp

/-- Where no symbol has two leaves, a path of the arena to a leaf is the leaf's code (R177, R181). -/
theorem codeOf_of_path {n : Nat} {nodes : List Node} (h : Shaped n nodes) (fuel : Nat) :
    ∀ (r : NodeIdx) (q : List Bool) (m : NodeIdx), r.val < nodes.length → depthBound n r ≤ fuel →
      follow nodes r q = some m → m.val < n → (treeAt nodes fuel r).syms.Nodup →
      (treeAt nodes fuel r).codeOf (nodeAt nodes m).data = some q := by
  induction fuel with
  | zero => intro r q m _ hd; have := depthBound_pos n r; omega
  | succ fuel ih =>
    intro r q m hr hd hq hm hnd
    by_cases hn : r.val < n
    · have hk := h.leaf r hn
      cases q with
      | nil =>
        simp only [follow, Option.some.injEq] at hq
        subst hq
        simp [treeAt, hk, leafTree, HTree.codeOf]
      | cons b q => simp [follow, hk] at hq
    · obtain ⟨hk, hl, hrt⟩ := h.internal r (by omega) hr
      have hdl := depthBound_child (n := n) (by omega) hl
      have hdr := depthBound_child (n := n) (by omega) hrt
      rw [treeAt_internal nodes fuel r hk] at hnd ⊢
      simp only [HTree.syms, List.nodup_append] at hnd
      obtain ⟨hndl, hndr, hdis⟩ := hnd
      simp only [HTree.codeOf]
      cases q with
      | nil =>
        simp only [follow, Option.some.injEq] at hq
        subst hq
        omega
      | cons b q =>
        simp only [follow, hk, if_true] at hq
        cases b with
        | true =>
          have := ih _ q m (by simpa [childOf] using (by omega : (nodeAt nodes r).right.val < nodes.length))
            (by omega) (by simpa [childOf] using hq) hm hndr
          rw [this]
        | false =>
          have := ih _ q m (by simpa [childOf] using (by omega : (nodeAt nodes r).left.val < nodes.length))
            (by omega) (by simpa [childOf] using hq) hm hndl
          have hmem := (HTree.mem_syms_of_codeOf _ _).mp (Option.isSome_iff_exists.mpr ⟨q, this⟩)
          cases hc : (treeAt nodes fuel (nodeAt nodes r).right).codeOf (nodeAt nodes m).data with
          | some p =>
            have hmem' := (HTree.mem_syms_of_codeOf _ _).mp (Option.isSome_iff_exists.mpr ⟨p, hc⟩)
            exact absurd rfl (hdis _ hmem _ hmem')
          | none => simp [this]

/-- Inserting a tree keeps the symbols, in some order. -/
theorem HTree.syms_insert (l : List HTree) (t : HTree) :
    ((HTree.insert l t).flatMap HTree.syms).Perm (t.syms ++ l.flatMap HTree.syms) := by
  induction l with
  | nil => simp [HTree.insert]
  | cons x rest ih =>
    simp only [HTree.insert]
    split
    · simp only [List.flatMap_cons]
      refine (ih.append_left x.syms).trans ?_
      rw [← List.append_assoc, ← List.append_assoc]
      exact List.perm_append_comm.append_right _
    · simp

/-- The merges keep the symbols, in some order (R179). -/
theorem HTree.syms_mergeAll (fuel : Nat) :
    ∀ l : List HTree, ((HTree.mergeAll fuel l).flatMap HTree.syms).Perm (l.flatMap HTree.syms) := by
  induction fuel with
  | zero => exact fun l => List.Perm.refl _
  | succ fuel ih =>
    intro l
    match l with
    | [] => exact List.Perm.refl _
    | [t] => exact List.Perm.refl _
    | a :: b :: rest =>
      refine (ih _).trans ((HTree.syms_insert _ _).trans ?_)
      simp [HTree.syms]

/-! The merges, on trees as values. -/

theorem Merging.shaped {base : List Node} {n : Nat} {nodes : List Node} {pl : List NodeIdx}
    (h : Merging base n nodes pl) : Shaped n nodes where
  leaf k hk := by rw [(h.leaf k hk).1]; exact (h.leaf k hk).2
  internal k hn hk := ⟨(h.internal k hn hk).1, (h.internal k hn hk).2.1, (h.internal k hn hk).2.2.1⟩

theorem map_insert (nodes : List Node) (T : NodeIdx → HTree) (pl : List NodeIdx) (k : NodeIdx)
    (hT : ∀ x, x ∈ k :: pl → (T x).freq = (nodeAt nodes x).freq.toNat ∧ (T x).data = (nodeAt nodes x).data) :
    (insert nodes pl k).map T = HTree.insert (pl.map T) (T k) := by
  induction pl with
  | nil => rfl
  | cons x rest ih =>
    have hx := hT x (by simp)
    have hk := hT k (by simp)
    have hcond : keyLe (nodeAt nodes x) (nodeAt nodes k) = true ↔
        ((T x).freq < (T k).freq ∨ ((T x).freq = (T k).freq ∧ (T x).data.toNat ≤ (T k).data.toNat)) := by
      rw [hx.1, hk.1, hx.2, hk.2, keyLe]
      simp only [Bool.or_eq_true, decide_eq_true_eq, Bool.and_eq_true, beq_iff_eq, BitVec.toNat_inj]
    have hrec := ih fun y hy => hT y (by
      rcases List.mem_cons.mp hy with rfl | hy
      · simp
      · simp [hy])
    simp only [insert, List.map_cons, HTree.insert]
    by_cases hc : keyLe (nodeAt nodes x) (nodeAt nodes k) = true
    · rw [if_pos hc, if_pos (hcond.mp hc), List.map_cons, hrec]
    · rw [if_neg hc, if_neg fun h => hc (hcond.mpr h), List.map_cons, List.map_cons]

/-- The trees of a priority list. -/
def treesOf (nodes : List Node) (pl : List NodeIdx) : List HTree := pl.map (treeAt nodes nNodes)

/-- A merge on the arena is a merge of trees (R175). -/
theorem merge_trees {base : List Node} {n : Nat} {nodes : List Node} {a b : NodeIdx} {rest : List NodeIdx}
    (h : Merging base n nodes (a :: b :: rest)) {nodes' : List Node} {pl' : List NodeIdx}
    (hm : merge nodes (a :: b :: rest) = .ok (nodes', pl')) :
    treesOf nodes' pl' =
      HTree.insert (treesOf nodes rest)
        (.node ((treeAt nodes nNodes a).freq + (treeAt nodes nNodes b).freq) (treeAt nodes nNodes a).data
          (treeAt nodes nNodes a) (treeAt nodes nNodes b)) := by
  have hsize := h.size
  have hsmall := h.small
  simp only [List.length_cons] at hsize
  have hroom : nodes.length < nNodes := by show nodes.length < 511; omega
  have hlight := h.light
  rw [freqSum_cons, freqSum_cons] at hlight
  have ha := h.listed a (by simp)
  have hb := h.listed b (by simp)
  have hr : ∀ k ∈ rest, k.val < nodes.length := fun k hk => h.listed k (by simp [hk])
  obtain ⟨nd, hk, hleft, hright, hdata, hfreq, hok⟩ := merge_ok nodes a b rest hroom (by omega)
  rw [hok] at hm
  simp only [Except.ok.injEq, Prod.mk.injEq] at hm
  obtain ⟨rfl, rfl⟩ := hm
  have hsh := h.shaped
  have hnew : nodeAt (nodes ++ [nd]) ⟨nodes.length, hroom⟩ = nd := nodeAt_append_eq nodes nd _ rfl
  have hkey : ∀ k : NodeIdx, k.val < nodes.length →
      (treeAt nodes nNodes k).freq = (nodeAt nodes k).freq.toNat ∧ (treeAt nodes nNodes k).data = (nodeAt nodes k).data :=
    fun k hk => treeAt_key hsh 510 k hk
  have htree : treeAt (nodes ++ [nd]) nNodes ⟨nodes.length, hroom⟩ =
      .node ((treeAt nodes nNodes a).freq + (treeAt nodes nNodes b).freq) (treeAt nodes nNodes a).data
          (treeAt nodes nNodes a) (treeAt nodes nNodes b) := by
    rw [(hkey a ha).1, (hkey b hb).1, (hkey a ha).2, ← hfreq, ← hdata]
    have hstep := treeAt_internal (nodes ++ [nd]) 510 ⟨nodes.length, hroom⟩ (by rw [hnew]; exact hk)
    rw [hnew, hleft, hright] at hstep
    refine hstep.trans ?_
    rw [treeAt_append nd hsh 510 a ha, treeAt_append nd hsh 510 b hb]
    have h511 : nodes.length < 511 := hroom
    rw [treeAt_fuel hsh 510 nNodes a ha (by omega) a.isLt, treeAt_fuel hsh 510 nNodes b hb (by omega) b.isLt]
  have hold : ∀ k ∈ rest, treeAt (nodes ++ [nd]) nNodes k = treeAt nodes nNodes k := fun k hk =>
    treeAt_append nd hsh nNodes k (hr k hk)
  simp only [treesOf]
  rw [map_insert (nodes ++ [nd]) (treeAt (nodes ++ [nd]) nNodes) rest _ ?_, htree, List.map_congr_left hold]
  intro x hx
  rcases List.mem_cons.mp hx with rfl | hx
  · rw [htree, hnew, (hkey a ha).1, (hkey b hb).1, (hkey a ha).2]
    exact ⟨hfreq.symm, hdata.symm⟩
  · rw [hold x hx, nodeAt_append_lt nodes nd x (hr x hx)]
    exact hkey x (hr x hx)

/-- The loop on the arena is the loop on trees (R176). -/
theorem mergeAll_trees {base : List Node} {n : Nat} (fuel : Nat) :
    ∀ {nodes : List Node} {pl : List NodeIdx}, Merging base n nodes pl →
      ∀ {nodes' : List Node} {pl' : List NodeIdx}, mergeAll fuel nodes pl = .ok (nodes', pl') →
        treesOf nodes' pl' = HTree.mergeAll fuel (treesOf nodes pl) := by
  induction fuel with
  | zero =>
    intro nodes pl _ nodes' pl' hm
    simp only [mergeAll, Except.ok.injEq, Prod.mk.injEq] at hm
    obtain ⟨rfl, rfl⟩ := hm
    rfl
  | succ fuel ih =>
    intro nodes pl h nodes' pl' hm
    match pl, h, hm with
    | [], _, hm =>
      simp only [mergeAll, List.length_nil, Nat.not_lt_zero, if_false, Except.ok.injEq, Prod.mk.injEq] at hm
      obtain ⟨rfl, rfl⟩ := hm
      rfl
    | [a], _, hm =>
      simp [mergeAll] at hm
      obtain ⟨rfl, rfl⟩ := hm
      rfl
    | a :: b :: rest, h, hm =>
      obtain ⟨nodes1, pl1, hm1, hk1, _, _⟩ := merge_keeps h (by simp)
      simp only [mergeAll, List.length_cons, hm1] at hm
      rw [if_pos (by omega)] at hm
      have := ih hk1 hm
      rw [this, merge_trees h hm1]
      simp only [treesOf, List.map_cons, HTree.mergeAll]

/-! BUILD (R176). -/

theorem presentCount_le (p : BitVec 256) : presentCount p ≤ 256 := by
  have := List.countP_le_length (p := p.getLsbD) (l := List.range nSym)
  simpa [presentCount] using this

theorem LeavesOk.nsym_le {e : Engine} (h : LeavesOk e) : e.nsym.toNat ≤ 256 := by
  rw [h.count]; exact presentCount_le _

theorem freqSum_lt (nodes : List Node) (pl : List NodeIdx) (h : ∀ k ∈ pl, (nodeAt nodes k).freq.toNat < 2 ^ 64) :
    freqSum nodes pl + pl.length ≤ pl.length * 2 ^ 64 := by
  induction pl with
  | nil => simp [freqSum]
  | cons x rest ih =>
    rw [freqSum_cons, List.length_cons]
    have h1 := h x (by simp)
    have h2 := ih fun k hk => h k (by simp [hk])
    omega

/-- A loaded table is where the merges start (R176). -/
theorem Loading.merging {e : Engine} (h : Loading e) : Merging e.node e.nsym.toNat e.node e.pl where
  leaf k hk := ⟨rfl, (h.leaves.leaf k hk).1⟩
  internal k hn hk := by have := h.only; omega
  nodup := List.Pairwise.imp (S := fun j k => j ≠ k) (fun {j k} hjk he => by subst he; exact keyLt_irrefl _ hjk) h.sorted
  listed k hk := by rw [h.only]; exact (h.listed k).mp hk
  owned k hk := .inl ((h.listed k).mpr (by rw [← h.only]; exact hk))
  size := by rw [h.only, h.size]; omega
  last hne := by
    have h0 : 0 < e.nsym.toNat := by
      rw [← h.size]; exact List.length_pos_of_ne_nil hne
    have hle := h.leaves.nsym_le
    refine ⟨⟨e.nsym.toNat - 1, by show _ < 511; omega⟩, (h.listed _).mpr (by show e.nsym.toNat - 1 < _; omega), ?_⟩
    show e.nsym.toNat - 1 + 1 = _
    rw [h.only]; omega
  sorted := h.sorted
  distinct j hj k hk he := h.leaves.distinct j k ((h.listed j).mp hj) ((h.listed k).mp hk) he
  small := h.leaves.nsym_le
  grown := by rw [h.only]
  light := by
    have h1 := freqSum_lt e.node e.pl fun k hk => (h.leaves.leaf k ((h.listed k).mp hk)).2.1
    have h2 := h.leaves.nsym_le
    rw [h.size] at h1
    omega

/-- What the merges of a loaded table leave (R176, R180). -/
theorem Loading.merged {e : Engine} (h : Loading e) :
    ∃ nodes pl, mergeAll e.pl.length e.node e.pl = .ok (nodes, pl) ∧ Merging e.node e.nsym.toNat nodes pl ∧
      nodes.length = e.nsym.toNat + (e.nsym.toNat - 1) ∧ freqSum nodes pl = freqSum e.node e.pl ∧
      treesOf nodes pl = HTree.mergeAll e.pl.length (treesOf e.node e.pl) ∧
      ((e.nsym.toNat = 0 ∧ pl = []) ∨ ∃ r : NodeIdx, 0 < e.nsym.toNat ∧ pl = [r] ∧ r.val + 1 = nodes.length) := by
  obtain ⟨nodes, pl, hm, hk, hlen, hs, he⟩ := mergeAll_keeps e.pl.length h.merging (by omega)
  have hn : pl = [] ↔ e.nsym.toNat = 0 := by rw [he, ← h.size, List.length_eq_zero_iff]
  have hlast := hk.last
  have ht := mergeAll_trees e.pl.length h.merging hm
  have hsize := hk.size
  have hgrown := hk.grown
  refine ⟨nodes, pl, hm, hk, ?_, hs, ht, ?_⟩
  · rw [← List.length_eq_zero_iff] at hn
    omega
  · clear hm hk ht hs he
    match pl, hn, hlast, hlen with
    | [], hn, _, _ => exact .inl ⟨hn.mp rfl, rfl⟩
    | [r], hn, hlast, _ =>
      have h0 : e.nsym.toNat ≠ 0 := fun h0 => by simpa using hn.mpr h0
      obtain ⟨k, hkm, hkl⟩ := hlast (by simp)
      simp only [List.mem_singleton] at hkm
      exact .inr ⟨r, by omega, rfl, by rw [← hkm]; exact hkl⟩

/-- From the last entry every entry is reached (R181). -/
theorem Merging.reached {base : List Node} {n : Nat} {nodes : List Node} {r : NodeIdx} (h : Merging base n nodes [r])
    (hr : r.val + 1 = nodes.length) (d : Nat) :
    ∀ k : NodeIdx, k.val < nodes.length → r.val - k.val ≤ d → ∃ q, follow nodes r q = some k := by
  have happ : ∀ (q : List Bool) (x m : NodeIdx) (b : Bool), follow nodes x q = some m →
      (nodeAt nodes m).kind = .internal → follow nodes x (q ++ [b]) = some (childOf (nodeAt nodes m) b) := by
    intro q
    induction q with
    | nil =>
      intro x m b hf hk
      simp only [follow, Option.some.injEq] at hf
      subst hf
      simp [follow, hk]
    | cons c q ih =>
      intro x m b hf hk
      simp only [follow] at hf
      split at hf
      · rename_i hx
        simp only [List.cons_append, follow, hx, if_true]
        exact ih _ m b hf hk
      · cases hf
  induction d with
  | zero =>
    intro k hk hd
    have : k = r := Fin.ext (by omega)
    exact ⟨[], by rw [this]; rfl⟩
  | succ d ih =>
    intro k hk hd
    rcases h.owned k hk with hm | ⟨m, hkm, hml, hnm, hc⟩
    · simp only [List.mem_singleton] at hm
      exact ⟨[], by rw [hm]; rfl⟩
    · obtain ⟨q, hq⟩ := ih m hml (by omega)
      have hmk := (h.internal m hnm hml).1
      rcases hc with hc | hc
      · exact ⟨q ++ [false], by rw [happ q r m false hq hmk]; simp [childOf, hc]⟩
      · exact ⟨q ++ [true], by rw [happ q r m true hq hmk]; simp [childOf, hc]⟩

theorem codeAt_replicate (s : Byte) : codeAt (List.replicate nSym Code.absent) s = Code.absent := by
  simp only [codeAt, List.getElem?_replicate]
  split <;> rfl

/-- The code generation of a built arena (R177, R180). -/
theorem Merging.codes {e : Engine} {nodes : List Node} {pl : List NodeIdx}
    (hk : Merging e.node e.nsym.toNat nodes pl) (hlen : nodes.length = e.nsym.toNat + (e.nsym.toNat - 1))
    (hpl : (e.nsym.toNat = 0 ∧ pl = []) ∨ ∃ r : NodeIdx, 0 < e.nsym.toNat ∧ pl = [r] ∧ r.val + 1 = nodes.length) :
    ∃ t, codeGen nodes (rootOf pl) = .ok t ∧ t.length = nSym ∧ ∀ s, codeAt t s = HTree.entryOf (treesOf nodes pl) s := by
  rcases hpl with ⟨_, rfl⟩ | ⟨r, h0, rfl, hr⟩
  · exact ⟨_, rfl, by simp, fun s => by rw [codeAt_replicate]; rfl⟩
  · have hsmall := hk.small
    have hd : depthBound e.nsym.toNat r ≤ maxCodeLen + 1 := by
      show _ ≤ 256
      simp only [depthBound]; split <;> omega
    obtain ⟨t, hw, hl, hc⟩ := walkCodes_spec hk.shaped (maxCodeLen + 1) r [] (List.replicate nSym Code.absent)
      (by omega) hd (by simp)
    refine ⟨t, hw, hl, fun s => ?_⟩
    rw [hc s, codeAt_replicate]
    have hfuel := treeAt_depth hk.shaped (maxCodeLen + 1) nNodes r (by omega) hd (Nat.le_trans hd (by decide))
    rw [hfuel]
    simp only [treesOf, List.map_cons, List.map_nil, HTree.entryOf]
    cases (treeAt nodes nNodes r).codeOf s <;> simp [entryFor]

/-- The value of the tree's codes for a merged table: exactly the symbols present have one, and it leads from the root to the
symbol's leaf in at most 255 bits (R180). -/
theorem Merging.codeOf {e : Engine} (hl : LeavesOk e) {nodes : List Node} {r : NodeIdx}
    (hk : Merging e.node e.nsym.toNat nodes [r]) (h0 : 0 < e.nsym.toNat) (hr : r.val + 1 = nodes.length) (s : Byte) :
    (e.has s = false → (treeAt nodes nNodes r).codeOf s = none) ∧
    (e.has s = true → ∃ q, (treeAt nodes nNodes r).codeOf s = some q ∧ q.length ≤ maxCodeLen ∧
      ∃ m : NodeIdx, follow nodes r q = some m ∧ m.val < e.nsym.toNat ∧ (nodeAt nodes m).data = s) := by
  have hsize := hk.size
  have hsmall := hk.small
  have hgrown := hk.grown
  simp only [List.length_cons, List.length_nil] at hsize
  have hd : depthBound e.nsym.toNat r ≤ maxCodeLen + 1 := by
    show _ ≤ 256
    simp only [depthBound]; split <;> omega
  have hfuel := treeAt_depth hk.shaped (maxCodeLen + 1) nNodes r (by omega) hd (Nat.le_trans hd (by decide))
  have hsome : ∀ q, (treeAt nodes nNodes r).codeOf s = some q → q.length ≤ maxCodeLen ∧
      ∃ m : NodeIdx, follow nodes r q = some m ∧ m.val < e.nsym.toNat ∧ (nodeAt nodes m).data = s := by
    intro q hq
    rw [← hfuel] at hq
    obtain ⟨h1, h2⟩ := codeOf_follow hk.shaped _ r s q (by omega) hd hq
    exact ⟨by omega, h2⟩
  constructor
  · intro hs
    cases hc : (treeAt nodes nNodes r).codeOf s with
    | none => rfl
    | some q =>
      obtain ⟨_, m, _, hm, hms⟩ := hsome q hc
      have h1 := (hl.leaf m hm).2.2
      rw [← (hk.leaf m hm).1, hms, hs] at h1
      cases h1
  · intro hs
    obtain ⟨k, hkn, hks⟩ := hl.covered s hs
    obtain ⟨q, hq⟩ := hk.reached hr (r.val) k (by omega) (by omega)
    have h1 := codeOf_of_follow hk.shaped (maxCodeLen + 1) r q k (by omega) hd hq hkn
    rw [(hk.leaf k hkn).1, hks, hfuel] at h1
    obtain ⟨p, hp⟩ := Option.isSome_iff_exists.mp h1
    exact ⟨p, hp, hsome p hp⟩

/-- BUILD from a loaded table succeeds, leaves a built tree, and its codes are those of the plain merge algorithm on trees
(R176, R177, R180). -/
theorem ruleBuild_spec {e : Engine} (h : Loading e) :
    ∃ nodes root t, ruleBuild e = .ok { e with node := nodes, root := root, pl := [], code := t, mode := .built } [] ∧
      Built { e with node := nodes, root := root, pl := [], code := t, mode := .built } ∧
      (∀ k : NodeIdx, k.val < e.nsym.toNat → nodeAt nodes k = nodeAt e.node k) ∧
      (∀ r, root = some r → (nodeAt nodes r).freq.toNat = freqSum e.node e.pl) ∧
      ∀ s, codeAt t s = HTree.entryOf (HTree.mergeAll e.pl.length (e.pl.map fun k => leafTree (nodeAt e.node k))) s := by
  obtain ⟨nodes, pl, hm, hk, hlen, hsum, htrees, hpl⟩ := h.merged
  obtain ⟨t, hcg, htl, hct⟩ := hk.codes hlen hpl
  have hstart : treesOf e.node e.pl = e.pl.map fun k => leafTree (nodeAt e.node k) := by
    refine List.map_congr_left fun k hkm => ?_
    show treeAt e.node (510 + 1) k = _
    simp only [treeAt, (h.leaves.leaf k ((h.listed k).mp hkm)).1]
  refine ⟨nodes, rootOf pl, t, by simp only [ruleBuild, hm, hcg], ?_, fun k hkn => (hk.leaf k hkn).1, ?_, ?_⟩
  · have hleaves : LeavesOk { e with node := nodes, root := rootOf pl, pl := [], code := t, mode := .built } :=
      { count := h.leaves.count
        room := by show _ ≤ nodes.length; rw [hlen]; show e.nsym.toNat ≤ _; omega
        leaf := fun k hkn => by
          show (nodeAt nodes k).kind = _ ∧ (nodeAt nodes k).freq.toNat < _ ∧ e.has (nodeAt nodes k).data = true
          rw [(hk.leaf k hkn).1]
          exact h.leaves.leaf k hkn
        distinct := fun j k hj hkn he => by
          have he' : (nodeAt nodes j).data = (nodeAt nodes k).data := he
          rw [(hk.leaf j hj).1, (hk.leaf k hkn).1] at he'
          exact h.leaves.distinct j k hj hkn he'
        covered := fun s hs => by
          obtain ⟨k, hkn, hks⟩ := h.leaves.covered s hs
          exact ⟨k, hkn, by show (nodeAt nodes k).data = s; rw [(hk.leaf k hkn).1]; exact hks⟩ }
    have hzero : e.nsym = 0 ↔ e.nsym.toNat = 0 := by
      constructor
      · intro h0; rw [h0]; rfl
      · intro h0; exact BitVec.eq_of_toNat_eq h0
    rcases hpl with ⟨h0, rfl⟩ | ⟨r, h0, rfl, hr⟩
    · have hnone : ∀ s, e.has s = false := by
        intro s
        cases hs : e.has s with
        | false => rfl
        | true => obtain ⟨k, hkn, _⟩ := h.leaves.covered s hs; omega
      have habs : ∀ s, codeAt t s = Code.absent := fun s => by rw [hct s]; rfl
      exact
        { leaves := hleaves
          merges := hlen
          internal := hk.internal
          spent := rfl
          rootless := fun _ => rfl
          rooted := fun hne => absurd (hzero.mpr h0) hne
          once := fun r hr => by cases hr
          table := htl
          coded := fun s => by
            show (codeAt t s).valid = e.has s
            rw [habs, hnone]; rfl
          absent := fun s _ => habs s
          path := fun s r hs => by
            have : e.has s = true := hs
            rw [hnone s] at this; cases this
          high := fun s => by
            show (codeAt t s).bits.toNat < _
            rw [habs s]; decide }
    · have hcode := hk.codeOf h.leaves h0 hr
      have hent : ∀ s, (e.has s = false → codeAt t s = Code.absent) ∧
          (e.has s = true → ∃ q, codeAt t s = ⟨true, BitVec.ofNat 8 q.length, pathBits q⟩ ∧ q.length ≤ maxCodeLen ∧
            ∃ m : NodeIdx, follow nodes r q = some m ∧ m.val < e.nsym.toNat ∧ (nodeAt nodes m).data = s) := by
        intro s
        rw [hct s]
        simp only [treesOf, List.map_cons, List.map_nil, HTree.entryOf]
        constructor
        · intro hs; rw [(hcode s).1 hs]
        · intro hs
          obtain ⟨q, hq, hql, hqm⟩ := (hcode s).2 hs
          exact ⟨q, by rw [hq], hql, hqm⟩
      exact
        { leaves := hleaves
          merges := hlen
          internal := hk.internal
          spent := rfl
          rootless := fun hz => absurd (hzero.mp hz) (by omega)
          rooted := fun _ => ⟨r, rfl, hr⟩
          once := fun r' hr' => by
            have : r' = r := by
              have h1 : rootOf [r] = some r' := hr'
              simpa [rootOf] using h1.symm
            subst this
            have hp := HTree.syms_mergeAll e.pl.length (treesOf e.node e.pl)
            rw [← htrees, hstart] at hp
            simp only [treesOf, List.map_cons, List.map_nil, List.flatMap_cons, List.flatMap_nil, List.append_nil] at hp
            show (treeAt nodes nNodes r').syms.Nodup
            have hmap : (e.pl.map fun k => leafTree (nodeAt e.node k)).flatMap HTree.syms =
                e.pl.map fun k => (nodeAt e.node k).data := by
              rw [List.flatMap_map, List.map_eq_flatMap]; rfl
            rw [hp.nodup_iff, hmap]
            exact List.Nodup.map_on (fun j hj k hk' => h.merging.distinct j hj k hk') h.merging.nodup
          table := htl
          coded := fun s => by
            show (codeAt t s).valid = e.has s
            cases hs : e.has s with
            | false => rw [(hent s).1 hs]; rfl
            | true => obtain ⟨q, hq, _⟩ := (hent s).2 hs; rw [hq]
          absent := fun s hs => (hent s).1 hs
          path := fun s r' hs hr' => by
            have : r' = r := by
              have h1 : rootOf [r] = some r' := hr'
              simpa [rootOf] using h1.symm
            subst this
            obtain ⟨q, hq, hql, hqm⟩ := (hent s).2 hs
            show ∃ m, follow nodes r' (codeAt t s).path = some m ∧ _
            rw [hq, path_pathBits true q hql]
            exact hqm
          high := fun s => by
            show (codeAt t s).bits.toNat < 2 ^ (codeAt t s).len.toNat
            cases hs : e.has s with
            | false => rw [(hent s).1 hs]; decide
            | true =>
              obtain ⟨q, hq, hql, _⟩ := (hent s).2 hs
              rw [hq]
              have : (BitVec.ofNat 8 q.length).toNat = q.length := by
                have hql' : q.length ≤ 255 := hql
                simp only [BitVec.toNat_ofNat]; omega
              show (pathBits q).toNat < 2 ^ (BitVec.ofNat 8 q.length).toNat
              rw [this]
              exact pathBits_lt q }
  · intro r hr
    rcases hpl with ⟨_, rfl⟩ | ⟨r', _, rfl, _⟩
    · cases hr
    · simp only [rootOf, Option.some.injEq] at hr
      subst hr
      rw [← hsum]; simp [freqSum]
  · intro s
    rw [hct s, htrees, hstart]

end Sys2Proof.Machine
end

