-- ==== Sys2Proof/Laws/Coding.lean ====
section
/-! SUPPORT. Command words: fields, and the one refusal of a 32-bit word (spec rules R111 to R116). -/

namespace Sys2Proof

theorem getLsbD_join (f : Fields) (i : Nat) :
    (join f).getLsbD i =
      if i < 8 then f.opcode.getLsbD i else if i - 8 < 8 then f.imm8.getLsbD (i - 8) else f.rsv.getLsbD (i - 8 - 8) := by
  have h1 := BitVec.getLsbD_append (x := f.rsv ++ f.imm8) (y := f.opcode) (i := i)
  have h2 := BitVec.getLsbD_append (x := f.rsv) (y := f.imm8) (i := i - 8)
  rw [h2] at h1
  exact h1

@[simp] theorem split_join (f : Fields) : split (join f) = f := by
  have h1 : (join f).extractLsb' 0 8 = f.opcode := by
    ext i hi
    simp [getLsbD_join, hi]
  have h2 : (join f).extractLsb' 8 8 = f.imm8 := by
    ext i hi
    simp [getLsbD_join, hi]
  have h3 : (join f).extractLsb' 16 16 = f.rsv := by
    ext i hi
    rw [BitVec.getElem_extractLsb', getLsbD_join, if_neg (by omega), if_neg (by omega),
      show 16 + i - 8 - 8 = i by omega, BitVec.getLsbD_eq_getElem hi]
  simp only [split, h1, h2, h3]

@[simp] theorem join_split (w : Word) : join (split w) = w := by
  ext i hi
  simp only [join, split]
  rw [BitVec.getElem_append]
  split
  · simp [BitVec.getElem_extractLsb', BitVec.getLsbD_eq_getElem, hi]
  · rw [BitVec.getElem_append]
    split
    · simp only [BitVec.getElem_extractLsb', BitVec.getLsbD_eq_getElem hi, show 8 + (i - 8) = i by omega]
    · simp only [BitVec.getElem_extractLsb', BitVec.getLsbD_eq_getElem hi, show 16 + (i - 8 - 8) = i by omega]

theorem wordOf_bytesOf (w : Word) :
    wordOf (w.extractLsb' 0 8) (w.extractLsb' 8 8) (w.extractLsb' 16 8) (w.extractLsb' 24 8) = w := by
  ext i hi
  simp only [wordOf]
  rw [BitVec.getElem_append]
  split
  · simp [BitVec.getElem_extractLsb', BitVec.getLsbD_eq_getElem, hi]
  · rw [BitVec.getElem_append]
    split
    · simp only [BitVec.getElem_extractLsb', BitVec.getLsbD_eq_getElem hi, show 8 + (i - 8) = i by omega]
    · rw [BitVec.getElem_append]
      split
      · simp only [BitVec.getElem_extractLsb', BitVec.getLsbD_eq_getElem hi, show 16 + (i - 8 - 8) = i by omega]
      · simp only [BitVec.getElem_extractLsb', BitVec.getLsbD_eq_getElem hi, show 24 + (i - 8 - 8 - 8) = i by omega]

/-- Decoding depends on the fields only (R111, R115). -/
theorem decode_join (f : Fields) :
    decode (join f) = if f.rsv ≠ 0 then .error .reservedBits else decodeOp f.opcode f.imm8 := by
  simp [decode]

end Sys2Proof
end

