-- ==== Sys2Proof/Laws/Items.lean ====
section
/-! SUPPORT. Output lists: a list of runs is the list of its items (notes/assumptions/7.md). -/

namespace Sys2Proof.Machine

@[simp] theorem itemsOf_nil : itemsOf [] = [] := rfl

@[simp] theorem itemsOf_runsOf (l : List Byte) : itemsOf (runsOf l) = l := by
  induction l with
  | nil => rfl
  | cons b l ih => simpa [runsOf, itemsOf] using ih

theorem itemsOf_run (b : Byte) (n : Nat) : itemsOf [⟨b, n⟩] = List.replicate n b := by simp [itemsOf]

/-- Nothing to pop exactly where the list is empty (R149, R150). -/
theorem popItem_none (l : List Run) (h : popItem l = none) : itemsOf l = [] := by
  induction l using popItem.induct with
  | case1 => rfl
  | case2 b rest ih => simpa [itemsOf] using ih (by simpa [popItem] using h)
  | case3 b rest => simp [popItem] at h
  | case4 b n rest => simp [popItem] at h

/-- A pop takes the first item and leaves the others in order (R149). -/
theorem popItem_some (l : List Run) (b : Byte) (rest : List Run) (h : popItem l = some (b, rest)) :
    itemsOf l = b :: itemsOf rest := by
  induction l using popItem.induct with
  | case1 => simp [popItem] at h
  | case2 b' rest' ih => simpa [itemsOf] using ih (by simpa [popItem] using h)
  | case3 b' rest' =>
    simp only [popItem, Option.some.injEq, Prod.mk.injEq] at h
    obtain ⟨rfl, rfl⟩ := h
    simp [itemsOf]
  | case4 b' n rest' =>
    simp only [popItem, Option.some.injEq, Prod.mk.injEq] at h
    obtain ⟨rfl, rfl⟩ := h
    simp [itemsOf, List.replicate_succ]

theorem popItem_of_items (l : List Run) :
    (itemsOf l = [] → popItem l = none) ∧
    ∀ b rest, itemsOf l = b :: rest → ∃ l', popItem l = some (b, l') ∧ itemsOf l' = rest := by
  cases h : popItem l with
  | none => simp [popItem_none l h]
  | some p =>
    have := popItem_some l p.1 p.2 h
    refine ⟨by simp [this], fun b rest hb => ⟨p.2, ?_⟩⟩
    rw [this] at hb
    simp only [List.cons.injEq] at hb
    exact ⟨by rw [← hb.1], hb.2⟩

end Sys2Proof.Machine
end

