-- ==== Sys2Proof/Laws/Load.lean ====
section
/-! SUPPORT. LOAD_SYM keeps a table loading (spec rules R41, R43, R172). -/

namespace Sys2Proof.Machine

theorem countP_insert (l : List Nat) (p q : Nat → Bool) (s : Nat) (hn : l.Nodup) (hs : s ∈ l) (hp : p s = false)
    (hq : q s = true) (heq : ∀ x, x ≠ s → q x = p x) : l.countP q = l.countP p + 1 := by
  induction l with
  | nil => cases hs
  | cons x rest ih =>
    rw [List.nodup_cons] at hn
    rcases List.mem_cons.mp hs with rfl | hs
    · have : rest.countP q = rest.countP p := List.countP_congr fun y hy => by
        rw [heq y fun he => hn.1 (he ▸ hy)]
      rw [List.countP_cons_of_pos hq, List.countP_cons_of_neg (by simp [hp]), this]
    · have hx : x ≠ s := fun he => hn.1 (he ▸ hs)
      have h := ih hn.2 hs
      simp only [List.countP_cons, heq x hx, h]
      omega

theorem getLsbD_setPresent (p : BitVec 256) (s : Byte) (i : Nat) :
    (p ||| BitVec.twoPow 256 s.toNat).getLsbD i = (p.getLsbD i || decide (s.toNat = i)) := by
  have : s.toNat < 256 := s.isLt
  rw [BitVec.getLsbD_or, BitVec.getLsbD_twoPow]
  by_cases h : s.toNat = i
  · simp [h]; omega
  · simp [h]

theorem presentCount_set (p : BitVec 256) (s : Byte) (h : p.getLsbD s.toNat = false) :
    presentCount (p ||| BitVec.twoPow 256 s.toNat) = presentCount p + 1 := by
  refine countP_insert _ _ _ s.toNat List.nodup_range (List.mem_range.mpr s.isLt) h ?_ ?_
  · rw [getLsbD_setPresent]; simp
  · intro x hx
    rw [getLsbD_setPresent]; simp [Ne.symm hx]

theorem has_setPresent (e : Engine) (s x : Byte) (nodes : List Node) (pl : List NodeIdx) (n : BitVec 9) :
    ({ e with node := nodes, pl := pl, present := e.present ||| BitVec.twoPow 256 s.toNat, nsym := n } : Engine).has x =
      (e.has x || decide (s = x)) := by
  simp only [Engine.has, getLsbD_setPresent, BitVec.toNat_inj]

/-- The engine state LOAD_SYM leaves (R172), where the arena has room. -/
def loadedEngine (e : Engine) (s : Byte) (f : Quad) (k : NodeIdx) : Engine :=
  { e with
    node := e.node ++ [⟨.leaf, leafFreq f, s, 0, 0⟩]
    pl := insert (e.node ++ [⟨.leaf, leafFreq f, s, 0, 0⟩]) e.pl k
    present := e.present ||| BitVec.twoPow 256 s.toNat
    nsym := e.nsym + 1 }

/-- LOAD_SYM of a new symbol succeeds, writes NODE[NNODES] and keeps the table loading (R172, R173). -/
theorem ruleLoadSym_spec {e : Engine} (h : Loading e) (s : Byte) (f : Quad) (hs : e.has s = false) :
    ∃ k : NodeIdx, k.val = e.node.length ∧ ruleLoadSym e s f = .ok (loadedEngine e s f k) [] ∧
      Loading (loadedEngine e s f k) := by
  have hpres := presentCount_set e.present s hs
  have hle := presentCount_le (e.present ||| BitVec.twoPow 256 s.toNat)
  have hcount := h.leaves.count
  have honly := h.only
  have hroom : e.node.length < nNodes := by show _ < 511; omega
  have hn1 : (e.nsym + 1).toNat = e.nsym.toNat + 1 := by
    rw [BitVec.toNat_add]
    show (e.nsym.toNat + 1) % 512 = _
    omega
  let nd : Node := ⟨.leaf, leafFreq f, s, 0, 0⟩
  let k : NodeIdx := ⟨e.node.length, hroom⟩
  have hnew : nodeAt (e.node ++ [nd]) k = nd := nodeAt_append_eq e.node nd k rfl
  have hlt : ∀ j : NodeIdx, j.val < e.node.length → nodeAt (e.node ++ [nd]) j = nodeAt e.node j :=
    fun j hj => nodeAt_append_lt e.node nd j hj
  have hcase : ∀ j : NodeIdx, j.val < e.nsym.toNat + 1 → j = k ∨ j.val < e.nsym.toNat := fun j hj => by
    by_cases hj' : j.val < e.nsym.toNat
    · exact .inr hj'
    · exact .inl (Fin.ext (by show j.val = e.node.length; omega))
  have hhas : ∀ x : Byte, (loadedEngine e s f k).has x = (e.has x || decide (s = x)) := fun x => has_setPresent e s x _ _ _
  have hold : ∀ j : NodeIdx, j.val < e.nsym.toNat → (nodeAt e.node j).data ≠ s := fun j hj he => by
    have := (h.leaves.leaf j hj).2.2
    rw [he, hs] at this; cases this
  have hplt : ∀ x ∈ e.pl, x.val < e.node.length := fun x hx => by rw [honly]; exact (h.listed x).mp hx
  refine ⟨k, rfl, by simp only [ruleLoadSym, hs, allocate, dif_pos hroom]; rfl, ?_⟩
  have hleaves : LeavesOk (loadedEngine e s f k) :=
    { count := by show (e.nsym + 1).toNat = presentCount (e.present ||| _); rw [hn1, hpres, hcount]
      room := by
        show (e.nsym + 1).toNat ≤ (e.node ++ [nd]).length
        rw [hn1, List.length_append, honly]; simp
      leaf := fun j hj => by
        have hj' : j.val < e.nsym.toNat + 1 := by rw [← hn1]; exact hj
        show (nodeAt (e.node ++ [nd]) j).kind = _ ∧ (nodeAt (e.node ++ [nd]) j).freq.toNat < _ ∧
          (loadedEngine e s f k).has (nodeAt (e.node ++ [nd]) j).data = true
        rw [hhas]
        rcases hcase j hj' with rfl | hj'
        · rw [hnew]
          refine ⟨rfl, ?_, by simp [nd]⟩
          show (leafFreq f).toNat < _
          simp only [leafFreq, BitVec.toNat_setWidth]
          exact Nat.lt_of_le_of_lt (Nat.mod_le _ _) f.isLt
        · rw [hlt j (by omega)]
          obtain ⟨h1, h2, h3⟩ := h.leaves.leaf j hj'
          exact ⟨h1, h2, by simp [h3]⟩
      distinct := fun j l hj hl he => by
        have hj' : j.val < e.nsym.toNat + 1 := by rw [← hn1]; exact hj
        have hl' : l.val < e.nsym.toNat + 1 := by rw [← hn1]; exact hl
        have he' : (nodeAt (e.node ++ [nd]) j).data = (nodeAt (e.node ++ [nd]) l).data := he
        rcases hcase j hj' with rfl | hj' <;> rcases hcase l hl' with rfl | hl'
        · rfl
        · rw [hnew, hlt l (by omega)] at he'
          exact absurd he'.symm (hold l hl')
        · rw [hnew, hlt j (by omega)] at he'
          exact absurd he' (hold j hj')
        · rw [hlt j (by omega), hlt l (by omega)] at he'
          exact h.leaves.distinct j l hj' hl' he'
      covered := fun x hx => by
        rw [hhas] at hx
        rcases (Bool.or_eq_true _ _).mp hx with hx | hx
        · obtain ⟨j, hj, hjx⟩ := h.leaves.covered x hx
          exact ⟨j, by show j.val < (e.nsym + 1).toNat; omega,
            by show (nodeAt (e.node ++ [nd]) j).data = x; rw [hlt j (by omega)]; exact hjx⟩
        · exact ⟨k, by show e.node.length < (e.nsym + 1).toNat; omega,
            by show (nodeAt (e.node ++ [nd]) k).data = x; rw [hnew]; exact of_decide_eq_true hx⟩ }
  exact
    { leaves := hleaves
      only := by
        show (e.node ++ [nd]).length = (e.nsym + 1).toNat
        rw [hn1, List.length_append, honly]; rfl
      sorted := by
        refine insert_sorted _ _ _ ?_ ?_
        · refine h.sorted.imp_of_mem fun {a b} ha hb hab => ?_
          show keyLt (nodeAt (e.node ++ [nd]) a) (nodeAt (e.node ++ [nd]) b)
          rw [hlt a (hplt a ha), hlt b (hplt b hb)]
          exact hab
        · intro x hx he
          have he : (nodeAt (e.node ++ [nd]) x).data = (nodeAt (e.node ++ [nd]) k).data := he
          rw [hlt x (hplt x hx), hnew] at he
          exact hold x ((h.listed x).mp hx) he
      listed := fun j => by
        show j ∈ insert _ e.pl k ↔ j.val < (e.nsym + 1).toNat
        rw [mem_insert, h.listed j, hn1]
        constructor
        · rintro (rfl | hj)
          · show e.node.length < _; omega
          · omega
        · intro hj; exact hcase j hj
      size := by
        show (insert _ e.pl k).length = (e.nsym + 1).toNat
        rw [insert_length, h.size, hn1]
      rootless := h.rootless
      codeless := h.codeless }

theorem has_reset (s : Byte) : Engine.reset.has s = false := by simp [Engine.has, Engine.reset]

theorem presentCount_zero : presentCount 0 = 0 := by simp [presentCount]

/-- The empty table is a table being loaded (R56). -/
theorem loading_reset : Loading Engine.reset where
  leaves :=
    { count := by rw [show Engine.reset.present = 0 from rfl, presentCount_zero]; rfl
      room := Nat.le_refl 0
      leaf := fun k hk => absurd hk (Nat.not_lt_zero _)
      distinct := fun j k hj => absurd hj (Nat.not_lt_zero _)
      covered := fun s hs => by rw [has_reset] at hs; cases hs }
  only := rfl
  sorted := List.Pairwise.nil
  listed k := Iff.intro (fun h => absurd h List.not_mem_nil) (fun h => absurd h (Nat.not_lt_zero _))
  size := rfl
  rootless := rfl
  codeless := rfl

end Sys2Proof.Machine
end

