-- ==== Sys2Proof/Laws/Packer.lean ====
section
/-! SUPPORT. The packer: what PackBit does to the accumulator, and that no bit is lost or reordered (spec rules R200, R204,
R205). -/

namespace Sys2Proof.Machine

theorem lt_two_pow_of_high {w : Nat} (v : BitVec w) (n : Nat) (h : ∀ i, n ≤ i → v.getLsbD i = false) :
    v.toNat < 2 ^ n :=
  Nat.lt_pow_two_of_testBit _ fun i hi => by
    have := h i hi
    rwa [BitVec.getLsbD] at this

theorem high_of_lt_two_pow {w : Nat} (v : BitVec w) (n i : Nat) (h : v.toNat < 2 ^ n) (hi : n ≤ i) :
    v.getLsbD i = false :=
  Nat.testBit_lt_two_pow (Nat.lt_of_lt_of_le h (Nat.pow_le_pow_right (by decide) hi))

theorem range_succ_map {α : Type} (n : Nat) (f g : Nat → α) (h : ∀ i, i < n → f i = g i) :
    (List.range (n + 1)).map f = (List.range n).map g ++ [f n] := by
  rw [List.range_succ, List.map_append]
  congr 1
  exact List.map_congr_left fun i hi => h i (List.mem_range.mp hi)

/-- PackBit writes nothing but the accumulator (R200). -/
theorem packBit_frame (e : Engine) (b : Bool) :
    (packBit e b).1 = { e with acc := (packBit e b).1.acc, accCnt := (packBit e b).1.accCnt } := by
  simp only [packBit]; split <;> rfl

/-- PackBit's bit goes after those in the accumulator, and a full accumulator is emitted as one byte (R200, R204). -/
theorem packBit_spec (e : Engine) (b : Bool) (h : e.acc.toNat < 2 ^ e.accCnt.toNat) :
    accBits e ++ [b] = (packBit e b).2.flatMap byteBits ++ accBits (packBit e b).1 ∧
      (packBit e b).1.acc.toNat < 2 ^ (packBit e b).1.accCnt.toNat := by
  have hlt : e.accCnt.toNat < 8 := e.accCnt.isLt
  have hbits : (List.range (e.accCnt.toNat + 1)).map (putBit e.acc e.accCnt.toNat b).getLsbD = accBits e ++ [b] := by
    rw [range_succ_map e.accCnt.toNat _ e.acc.getLsbD]
    · rw [getLsbD_putBit _ _ _ _ hlt]; simp [accBits]
    · intro i hi
      rw [getLsbD_putBit _ _ _ _ hlt, if_neg (by omega)]
  by_cases h7 : e.accCnt = 7
  · have h7n : e.accCnt.toNat = 7 := by rw [h7]; rfl
    rw [h7n] at hbits
    simp only [packBit, if_pos h7, List.flatMap_cons, List.flatMap_nil, List.append_nil, h7n]
    refine ⟨?_, by simp⟩
    rw [← hbits]
    simp [byteBits, accBits]
  · have h7n : e.accCnt.toNat ≠ 7 := fun hn => h7 (BitVec.eq_of_toNat_eq hn)
    have hs : (e.accCnt + 1).toNat = e.accCnt.toNat + 1 := by
      rw [BitVec.toNat_add]
      show (e.accCnt.toNat + 1) % 8 = _
      omega
    simp only [packBit, if_neg h7, List.flatMap_nil, List.nil_append]
    refine ⟨?_, ?_⟩
    · rw [← hbits]; simp only [accBits, hs]
    · rw [hs]
      refine lt_two_pow_of_high _ _ fun i hi => ?_
      rw [getLsbD_putBit _ _ _ _ hlt, if_neg (by omega)]
      exact high_of_lt_two_pow _ _ _ h (by omega)

theorem packBits_cons (e : Engine) (b : Bool) (bs : List Bool) :
    packBits e (b :: bs) =
      ((packBits (packBit e b).1 bs).1, (packBit e b).2 ++ (packBits (packBit e b).1 bs).2) := rfl

theorem packBits_frame (bs : List Bool) : ∀ e : Engine,
    (packBits e bs).1 = { e with acc := (packBits e bs).1.acc, accCnt := (packBits e bs).1.accCnt } := by
  induction bs with
  | nil => exact fun e => rfl
  | cons b bs ih =>
    intro e
    rw [packBits_cons, ih (packBit e b).1, packBit_frame e b]

/-- The bits appended come out, in order, in the bytes emitted and the accumulator left (R202, R205). -/
theorem packBits_spec (bs : List Bool) : ∀ e : Engine, e.acc.toNat < 2 ^ e.accCnt.toNat →
    accBits e ++ bs = (packBits e bs).2.flatMap byteBits ++ accBits (packBits e bs).1 ∧
      (packBits e bs).1.acc.toNat < 2 ^ (packBits e bs).1.accCnt.toNat := by
  induction bs with
  | nil => exact fun e h => ⟨by simp [packBits], h⟩
  | cons b bs ih =>
    intro e h
    obtain ⟨h1, h2⟩ := packBit_spec e b h
    obtain ⟨h3, h4⟩ := ih (packBit e b).1 h2
    rw [packBits_cons]
    refine ⟨?_, h4⟩
    rw [List.flatMap_append, List.append_assoc, ← h3, ← List.append_assoc, ← h1, List.append_assoc]
    rfl

end Sys2Proof.Machine
end

