-- ==== Sys2Proof/Laws/PerInstr.lean ====
section
/-! SUPPORT. Statements about the instruction as syntax, one lemma per constructor: its word's fields are legal (spec rules R111,
R114, R115), and decoding its word gives it back. -/

namespace Sys2Proof.Laws.Legal

/-- The instruction's word is a legal command word and stands for it. -/
def Statement (i : Instr) : Prop := i.wf = true ∧ (fieldsOf i).wf = true ∧ decode (encode i) = .ok i

/-- An instruction whose fields are legal and decode to it. -/
theorem of_fields (i : Instr) (h1 : i.wf = true) (h2 : (fieldsOf i).wf = true) (h3 : (fieldsOf i).rsv = 0)
    (h4 : decodeOp (fieldsOf i).opcode (fieldsOf i).imm8 = .ok i) : Statement i :=
  ⟨h1, h2, by rw [encode, decode_join, if_neg (by simp [h3]), h4]⟩

/-- Every 8-bit operand is a symbol 0..255 (R112). -/
theorem byte_lt (s : Byte) : decide (s.toNat < nSym) = true := decide_eq_true s.isLt

theorem nop : Statement .nop := of_fields _ rfl rfl rfl rfl

theorem clear : Statement .clear := of_fields _ rfl rfl rfl rfl

theorem loadSym (s : Byte) : Statement (.loadSym s) := of_fields _ (byte_lt s) rfl rfl rfl

theorem build : Statement .build := of_fields _ rfl rfl rfl rfl

theorem queryCode (s : Byte) : Statement (.queryCode s) := of_fields _ (byte_lt s) rfl rfl rfl

theorem encStart : Statement .encStart := of_fields _ rfl rfl rfl rfl

theorem encSym (s : Byte) : Statement (.encSym s) := of_fields _ (byte_lt s) rfl rfl rfl

theorem encFlush : Statement .encFlush := of_fields _ rfl rfl rfl rfl

theorem decStart : Statement .decStart := of_fields _ rfl rfl rfl rfl

theorem decByte (b : Byte) : Statement (.decByte b) := of_fields _ (byte_lt b) rfl rfl rfl

theorem decEnd : Statement .decEnd := of_fields _ rfl rfl rfl rfl

end Sys2Proof.Laws.Legal
end

