-- ==== Sys2Proof/Laws/Walker.lean ====
section
/-! SUPPORT. The tree walk: in a built tree with the cursor inside it, WalkBit is defined, and the cursor stays inside (spec
rules R221, R223, R226). -/

namespace Sys2Proof.Machine

theorem Built.shaped {e : Engine} (h : Built e) : Shaped e.nsym.toNat e.node where
  leaf k hk := (h.leaves.leaf k hk).1
  internal k hn hk := ⟨(h.internal k hn hk).1, (h.internal k hn hk).2.1, (h.internal k hn hk).2.2.1⟩

/-- A child of an INTERNAL entry is in use. -/
theorem Built.child_lt {e : Engine} (h : Built e) (p : NodeIdx) (b : Bool) (hp : (nodeAt e.node p).kind = .internal) :
    (childOf (nodeAt e.node p) b).val < e.node.length := by
  have hlt := lt_of_kind (nodes := e.node) (k := p) (by rw [hp]; decide)
  have hn : e.nsym.toNat ≤ p.val := by
    by_contra hc
    rw [(h.leaves.leaf p (by omega)).1] at hp; cases hp
  obtain ⟨_, h1, h2⟩ := h.shaped.internal p hn hlt
  cases b <;> simp only [childOf, if_true, Bool.false_eq_true, if_false] <;> omega

/-- An entry in use is a LEAF or INTERNAL (R40). -/
theorem Built.kinds {e : Engine} (h : Built e) (k : NodeIdx) (hk : k.val < e.node.length) :
    (nodeAt e.node k).kind = .leaf ∨ (nodeAt e.node k).kind = .internal := by
  by_cases hn : k.val < e.nsym.toNat
  · exact .inl (h.leaves.leaf k hn).1
  · exact .inr (h.internal k (by omega) hk).1

/-- With two symbols or more the root is INTERNAL (R180). -/
theorem Built.root_internal {e : Engine} (h : Built e) (h2 : 2 ≤ e.nsym.toNat) :
    ∃ r : NodeIdx, e.root = some r ∧ (nodeAt e.node r).kind = .internal := by
  have hne : e.nsym ≠ 0 := fun h0 => by rw [h0] at h2; exact absurd h2 (by decide)
  obtain ⟨r, hr, hrl⟩ := h.rooted hne
  have hm := h.merges
  exact ⟨r, hr, (h.internal r (by omega) (by omega)).1⟩

/-- The code of a symbol present is its path in the tree under the root (R177, R181). -/
theorem Built.codeOf {e : Engine} (h : Built e) {r : NodeIdx} (hr : e.root = some r) (s : Byte) (hs : e.has s = true) :
    (treeAt e.node nNodes r).codeOf s = some (codeAt e.code s).path := by
  obtain ⟨m, hm, hmn, hms⟩ := h.path s r hs hr
  have hsmall := h.leaves.nsym_le
  have hmerges := h.merges
  have hne : e.nsym ≠ 0 := fun h0 => by rw [h0] at hmn; exact absurd hmn (Nat.not_lt_zero _)
  obtain ⟨r', hr', hrl⟩ := h.rooted hne
  rw [hr] at hr'
  simp only [Option.some.injEq] at hr'
  subst hr'
  have hd : depthBound e.nsym.toNat r ≤ nNodes := by
    show _ ≤ 511
    simp only [depthBound]; split <;> omega
  rw [← hms]
  exact hms ▸ codeOf_of_path h.shaped nNodes r _ m (by omega) hd hm hmn (h.once r hr)

/-- What one WalkBit answers in a built tree with the cursor at an INTERNAL node (R221, R226). -/
theorem walkBit_cases {e : Engine} (b : Bool) {p : NodeIdx} (hp : e.pos = some p)
    (hk : (nodeAt e.node p).kind = .internal) :
    ((nodeAt e.node (childOf (nodeAt e.node p) b)).kind = .leaf ∧
      walkBit e b = .ok ({ e with count := e.count + 1, pos := e.root },
        [(nodeAt e.node (childOf (nodeAt e.node p) b)).data])) ∨
    ((nodeAt e.node (childOf (nodeAt e.node p) b)).kind ≠ .leaf ∧
      walkBit e b = .ok ({ e with pos := some (childOf (nodeAt e.node p) b) }, [])) := by
  by_cases h : (nodeAt e.node (childOf (nodeAt e.node p) b)).kind = .leaf
  · exact .inl ⟨h, by simp only [walkBit, hp, if_pos hk, if_pos h]⟩
  · exact .inr ⟨h, by simp only [walkBit, hp, if_pos hk, if_neg h]⟩

theorem Built.of_eq {e e' : Engine} (h : Built e) (h1 : e'.node = e.node) (h2 : e'.pl = e.pl) (h3 : e'.root = e.root)
    (h4 : e'.present = e.present) (h5 : e'.nsym = e.nsym) (h6 : e'.code = e.code) : Built e' := by
  obtain ⟨⟩ := e
  obtain ⟨⟩ := e'
  simp only at h1 h2 h3 h4 h5 h6
  subst h1 h2 h3 h4 h5 h6
  exact { leaves := { count := h.leaves.count, room := h.leaves.room, leaf := h.leaves.leaf, distinct := h.leaves.distinct,
                      covered := h.leaves.covered }
          merges := h.merges, internal := h.internal, spent := h.spent, rootless := h.rootless, rooted := h.rooted
          once := h.once, table := h.table, coded := h.coded, absent := h.absent, path := h.path, high := h.high }

theorem Loading.of_eq {e e' : Engine} (h : Loading e) (h1 : e'.node = e.node) (h2 : e'.pl = e.pl) (h3 : e'.root = e.root)
    (h4 : e'.present = e.present) (h5 : e'.nsym = e.nsym) (h6 : e'.code = e.code) : Loading e' := by
  obtain ⟨⟩ := e
  obtain ⟨⟩ := e'
  simp only at h1 h2 h3 h4 h5 h6
  subst h1 h2 h3 h4 h5 h6
  exact { leaves := { count := h.leaves.count, room := h.leaves.room, leaf := h.leaves.leaf, distinct := h.leaves.distinct,
                      covered := h.leaves.covered }
          only := h.only, sorted := h.sorted, listed := h.listed, size := h.size, rootless := h.rootless
          codeless := h.codeless }

/-- WalkBit keeps the cursor inside the tree and COUNT at most TOTAL, and writes only COUNT and POS (R221, R226). -/
theorem walkBit_keeps {e : Engine} (h : Built e) (hc : CursorOk e) (b : Bool) (hne : e.count ≠ e.total) :
    ∃ c q l, walkBit e b = .ok ({ e with count := c, pos := q }, l) ∧ CursorOk { e with count := c, pos := q } ∧
      c.toNat = e.count.toNat + l.length := by
  obtain ⟨h2, p, hp, hk⟩ := hc.inside hne
  have hb := hc.bounded
  have hneN : e.count.toNat ≠ e.total.toNat := fun hn => hne (BitVec.eq_of_toNat_eq hn)
  have hinc : (e.count + 1).toNat = e.count.toNat + 1 := by
    rw [BitVec.toNat_add]
    have := e.total.isLt
    show (e.count.toNat + 1) % 2 ^ 64 = _
    omega
  rcases walkBit_cases b hp hk with ⟨hl, hw⟩ | ⟨hl, hw⟩
  · refine ⟨_, _, _, hw, ⟨by show (e.count + 1).toNat ≤ e.total.toNat; omega, fun _ => ⟨h2, ?_⟩, fun _ => rfl⟩, by rw [hinc]; rfl⟩
    obtain ⟨r, hr, hri⟩ := h.root_internal h2
    exact ⟨r, hr, hri⟩
  · refine ⟨e.count, _, _, hw, ⟨hb, fun _ => ⟨h2, _, rfl, ?_⟩, fun he => absurd he hne⟩, rfl⟩
    rcases h.kinds _ (h.child_lt p b hk) with h' | h'
    · exact absurd h' hl
    · exact h'

/-- The loop of DEC_BYTE over any bits: it is defined, counts what it emits, and keeps the cursor inside (R223, R226). -/
theorem walkBits_keeps (bs : List Bool) : ∀ {e : Engine}, Built e → CursorOk e →
    ∃ c q l, walkBits e bs = .ok ({ e with count := c, pos := q }, l) ∧ CursorOk { e with count := c, pos := q } ∧
      c.toNat = e.count.toNat + l.length ∧ l.length ≤ bs.length := by
  induction bs with
  | nil => exact fun {e} _ hc => ⟨e.count, e.pos, [], rfl, hc, rfl, Nat.le_refl _⟩
  | cons b bs ih =>
    intro e h hc
    by_cases hne : e.count = e.total
    · exact ⟨e.count, e.pos, [], by simp only [walkBits, if_pos hne], hc, rfl, Nat.zero_le _⟩
    · obtain ⟨c, q, l, hw, hc1, hcount⟩ := walkBit_keeps h hc b hne
      obtain ⟨c2, q2, l2, hw2, hc2, hcount2, hlen2⟩ :=
        ih (e := { e with count := c, pos := q }) (h.of_eq rfl rfl rfl rfl rfl rfl) hc1
      have hl : l.length ≤ 1 := by
        obtain ⟨_, p, hp, hk⟩ := hc.inside hne
        rcases walkBit_cases b hp hk with ⟨_, hw'⟩ | ⟨_, hw'⟩ <;>
        · rw [hw] at hw'
          simp only [Except.ok.injEq, Prod.mk.injEq] at hw'
          rw [hw'.2]; simp
      refine ⟨c2, q2, l ++ l2, by simp only [walkBits, if_neg hne, hw, hw2], hc2, ?_, ?_⟩
      · rw [hcount2, List.length_append]
        show c.toNat + _ = _
        omega
      · rw [List.length_append, List.length_cons]; omega

end Sys2Proof.Machine
end

