-- ==== Sys2Proof/Laws/Rules.lean ====
section
/-! SUPPORT. Every command's rule from an engine state that meets the invariant: it succeeds in one that meets it, or takes an
error; no rule gets stuck (spec rules R10, R151, R273). -/

namespace Sys2Proof.Machine

/-- What a rule may answer. -/
def Sound (r : Result) : Prop :=
  (∃ e' items, r = .ok e' items ∧ e'.Inv ∧ e'.mode ≠ .error) ∨ ∃ c, r = .err c ∧ c ≠ .noError

/-- The reset engine state meets the invariant (R56). -/
theorem inv_reset : Engine.reset.Inv where
  loading _ := loading_reset
  built h := by rcases h with h | h | h <;> cases h
  failed h := by cases h
  cursor h := by cases h
  record := by simp [Engine.reset]
  clean _ := rfl
  packed := by decide
  queried := by decide

/-- An engine state outside MODE = ERROR that agrees with one that meets the invariant on the table, the tree and the error
record. -/
theorem Engine.Inv.of_built {e e' : Engine} (h : e.Inv) (hb : Built e) (hm : e'.mode = .built ∨ e'.mode = .enc ∨ e'.mode = .dec)
    (he : e.mode ≠ .error) (h1 : e'.node = e.node) (h2 : e'.pl = e.pl) (h3 : e'.root = e.root)
    (h4 : e'.present = e.present) (h5 : e'.nsym = e.nsym) (h6 : e'.code = e.code) (h7 : e'.errCode = e.errCode)
    (h8 : e'.errCmd = e.errCmd) (hp : e'.acc.toNat < 2 ^ e'.accCnt.toNat) (hc : e'.mode = .dec → CursorOk e')
    (hq : e'.qbits.toNat < 2 ^ e'.qlen.toNat ∧ e'.qlen.toNat ≤ maxCodeLen) : e'.Inv where
  loading hl := by rw [hl] at hm; rcases hm with h | h | h <;> cases h
  built _ := hb.of_eq h1 h2 h3 h4 h5 h6
  failed hl := by rw [hl] at hm; rcases hm with h | h | h <;> cases h
  cursor := hc
  record := by
    have hno : e.errCode = .noError := by
      by_contra hn; exact he (h.record.mpr hn)
    rw [h7, hno]
    constructor
    · intro hl; rw [hl] at hm; rcases hm with h | h | h <;> cases h
    · intro hn; exact absurd rfl hn
  clean hn := by rw [h8]; exact h.clean (by rw [← h7]; exact hn)
  packed := hp
  queried := hq

theorem sound_nop {e : Engine} (h : e.Inv) (hm : e.mode ≠ .error) : Sound (ruleNop e) := .inl ⟨e, [], rfl, h, hm⟩

theorem sound_clear (e : Engine) : Sound (ruleClear e) := .inl ⟨_, _, rfl, inv_reset, by decide⟩

theorem sound_loadSym {e : Engine} (h : e.Inv) (hm : e.mode = .load) (s : Byte) (f : Quad) : Sound (ruleLoadSym e s f) := by
  cases hs : e.has s with
  | true => exact .inr ⟨.dupSymbol, by simp [ruleLoadSym, hs], by decide⟩
  | false =>
    obtain ⟨k, _, hr, hl⟩ := ruleLoadSym_spec (h.loading hm) s f hs
    refine .inl ⟨_, _, hr, ?_, by show e.mode ≠ _; rw [hm]; decide⟩
    exact
      { loading := fun _ => hl
        built := fun h' => by
          have h'' : e.mode = .built ∨ e.mode = .enc ∨ e.mode = .dec := h'
          rw [hm] at h''; rcases h'' with h | h | h <;> cases h
        failed := fun h' => by
          have h'' : e.mode = .error := h'
          rw [hm] at h''; cases h''
        cursor := fun h' => by
          have h'' : e.mode = .dec := h'
          rw [hm] at h''; cases h''
        record := h.record
        clean := h.clean
        packed := h.packed
        queried := h.queried }

theorem sound_build {e : Engine} (h : e.Inv) (hm : e.mode = .load) : Sound (ruleBuild e) := by
  obtain ⟨nodes, root, t, hr, hb, _⟩ := ruleBuild_spec (h.loading hm)
  have hno : e.errCode = .noError := by
    by_contra hn
    have := h.record.mpr hn
    rw [hm] at this; cases this
  refine .inl ⟨_, _, hr, ?_, by intro h'; cases h'⟩
  exact
    { loading := by intro h'; cases h'
      built := fun _ => hb
      failed := by intro h'; cases h'
      cursor := by intro h'; cases h'
      record := Iff.intro (by intro h'; cases h') (fun hn => absurd hno hn)
      clean := h.clean
      packed := h.packed
      queried := h.queried }

theorem sound_queryCode {e : Engine} (h : e.Inv) (hm : e.mode = .built ∨ e.mode = .enc ∨ e.mode = .dec) (s : Byte) :
    Sound (ruleQueryCode e s) := by
  have hne : e.mode ≠ .error := by rcases hm with h | h | h <;> rw [h] <;> decide
  have hhigh := (h.built hm).high s
  have h8 : ((codeAt e.code s).len.setWidth 9).toNat = (codeAt e.code s).len.toNat := by
    rw [BitVec.toNat_setWidth]
    have := (codeAt e.code s).len.isLt
    omega
  refine .inl ⟨_, _, rfl, h.of_built (h.built hm) hm hne rfl rfl rfl rfl rfl rfl rfl rfl h.packed ?_ ?_, hne⟩
  · intro hd
    obtain ⟨h1, h2, h3⟩ := h.cursor hd
    exact ⟨h1, h2, h3⟩
  · show ((codeAt e.code s).bits.setWidth 256).toNat < 2 ^ ((codeAt e.code s).len.setWidth 9).toNat ∧
      ((codeAt e.code s).len.setWidth 9).toNat ≤ 255
    rw [h8]
    refine ⟨?_, by have := (codeAt e.code s).len.isLt; omega⟩
    rw [BitVec.toNat_setWidth]
    exact Nat.lt_of_le_of_lt (Nat.mod_le _ _) hhigh

theorem sound_encStart {e : Engine} (h : e.Inv) (hm : e.mode = .built) : Sound (ruleEncStart e) :=
  .inl ⟨_, _, rfl, h.of_built (h.built (.inl hm)) (.inr (.inl rfl)) (by rw [hm]; decide) rfl rfl rfl rfl rfl rfl rfl rfl
    (by show (0 : Byte).toNat < 2 ^ (0 : BitVec 3).toNat; decide) (by intro h'; cases h') h.queried, by intro h'; cases h'⟩

theorem sound_encSym {e : Engine} (h : e.Inv) (hm : e.mode = .enc) (s : Byte) : Sound (ruleEncSym e s) := by
  by_cases hv : (codeAt e.code s).valid
  · by_cases hc : e.count = BitVec.allOnes 64
    · exact .inr ⟨.countOverflow, by simp only [ruleEncSym, hv, if_true, if_pos hc], by decide⟩
    · have hf := packBits_frame (codeAt e.code s).path e
      have hp := (packBits_spec (codeAt e.code s).path e h.packed).2
      refine .inl ⟨{ (packBits e (codeAt e.code s).path).1 with count := e.count + 1 },
        runsOf (packBits e (codeAt e.code s).path).2, by simp only [ruleEncSym, hv, if_true, if_neg hc], ?_, ?_⟩
      · rw [hf]
        exact h.of_built (h.built (.inr (.inl hm))) (.inr (.inl hm)) (by rw [hm]; decide) rfl rfl rfl rfl rfl rfl rfl rfl
          hp (fun h' => by have h'' : e.mode = .dec := h'; rw [hm] at h''; cases h'') h.queried
      · rw [hf]
        show e.mode ≠ _
        rw [hm]; decide
  · exact .inr ⟨.symAbsent, by simp only [ruleEncSym, hv, Bool.false_eq_true, if_false], by decide⟩

theorem sound_encFlush {e : Engine} (h : e.Inv) (hm : e.mode = .enc) : Sound (ruleEncFlush e) :=
  .inl ⟨_, _, rfl, h.of_built (h.built (.inr (.inl hm))) (.inl rfl) (by rw [hm]; decide) rfl rfl rfl rfl rfl rfl rfl rfl
    (by show (0 : Byte).toNat < 2 ^ (0 : BitVec 3).toNat; decide) (by intro h'; cases h') h.queried, by intro h'; cases h'⟩

theorem sound_decStart {e : Engine} (h : e.Inv) (hm : e.mode = .built) (t : Quad) : Sound (ruleDecStart e t) := by
  have hb := h.built (.inl hm)
  have hne : e.mode ≠ .error := by rw [hm]; decide
  by_cases h0 : e.nsym = 0 ∧ t ≠ 0
  · exact .inr ⟨.formatEmpty, by simp only [ruleDecStart, if_pos h0], by decide⟩
  · by_cases h1 : e.nsym = 1
    · have hne0 : e.nsym ≠ 0 := by rw [h1]; decide
      obtain ⟨r, hr, _⟩ := hb.rooted hne0
      refine .inl ⟨{ e with total := t, count := t, pos := some r, mode := .dec }, _,
        by simp only [ruleDecStart, if_neg h0, if_pos h1, hr]; rfl, ?_, by intro h'; cases h'⟩
      exact h.of_built hb (.inr (.inr rfl)) hne rfl rfl rfl rfl rfl rfl rfl rfl h.packed
        (fun _ => ⟨Nat.le_refl _, fun hne => absurd rfl hne, fun _ => hr.symm⟩) h.queried
    · refine .inl ⟨{ e with total := t, count := 0, pos := e.root, mode := .dec }, _,
        by simp only [ruleDecStart, if_neg h0, if_neg h1]; rfl, ?_, by intro h'; cases h'⟩
      refine h.of_built hb (.inr (.inr rfl)) hne rfl rfl rfl rfl rfl rfl rfl rfl h.packed (fun _ => ⟨?_, fun hne => ?_, fun _ => rfl⟩) h.queried
      · exact Nat.zero_le _
      · have hn0 : e.nsym ≠ 0 := fun hz => h0 ⟨hz, fun ht => hne (by show (0 : Quad) = t; exact ht.symm)⟩
        have hn0' : e.nsym.toNat ≠ 0 := fun hz => hn0 (BitVec.eq_of_toNat_eq hz)
        have hn1' : e.nsym.toNat ≠ 1 := fun hz => h1 (BitVec.eq_of_toNat_eq hz)
        have h2 : 2 ≤ e.nsym.toNat := by omega
        obtain ⟨r, hr, hri⟩ := hb.root_internal h2
        exact ⟨h2, r, hr, hri⟩

theorem sound_decByte {e : Engine} (h : e.Inv) (hm : e.mode = .dec) (v : Byte) : Sound (ruleDecByte e v) := by
  have hb := h.built (.inr (.inr hm))
  obtain ⟨c, q, l, hw, hc, _⟩ := walkBits_keeps (byteBits v) hb (h.cursor hm)
  have hne : e.mode ≠ .error := by rw [hm]; decide
  exact .inl ⟨{ e with count := c, pos := q }, _, by simp only [ruleDecByte, hw]; rfl,
    h.of_built hb (.inr (.inr hm)) hne rfl rfl rfl rfl rfl rfl rfl rfl h.packed (fun _ => hc) h.queried, hne⟩

theorem sound_decEnd {e : Engine} (h : e.Inv) (hm : e.mode = .dec) : Sound (ruleDecEnd e) := by
  by_cases hc : e.count.toNat < e.total.toNat
  · exact .inr ⟨.truncated, by simp only [ruleDecEnd, if_pos hc], by decide⟩
  · exact .inl ⟨{ e with mode := .built }, _, by simp only [ruleDecEnd, if_neg hc]; rfl,
      h.of_built (h.built (.inr (.inr hm))) (.inl rfl) (by rw [hm]; decide) rfl rfl rfl rfl rfl rfl rfl rfl h.packed
        (by intro h'; cases h') h.queried, by intro h'; cases h'⟩

/-- Every command from a state that meets the invariant (R151). -/
theorem execCommand_sound {e : Engine} (h : e.Inv) (i : Instr) (a : Quad) : Sound (execCommand e i a) := by
  by_cases hl : legalIn i e.mode = true
  · simp only [execCommand, if_pos hl]
    cases i with
    | nop => exact sound_nop h (by simpa [legalIn] using hl)
    | clear => exact sound_clear e
    | loadSym s => exact sound_loadSym h (by simpa [legalIn] using hl) s a
    | build => exact sound_build h (by simpa [legalIn] using hl)
    | queryCode s => exact sound_queryCode h (by simpa [legalIn, or_assoc] using hl) s
    | encStart => exact sound_encStart h (by simpa [legalIn] using hl)
    | encSym s => exact sound_encSym h (by simpa [legalIn] using hl) s
    | encFlush => exact sound_encFlush h (by simpa [legalIn] using hl)
    | decStart => exact sound_decStart h (by simpa [legalIn] using hl) a
    | decByte v => exact sound_decByte h (by simpa [legalIn] using hl) v
    | decEnd => exact sound_decEnd h (by simpa [legalIn] using hl)
  · exact .inr ⟨.badState, by simp only [execCommand, if_neg hl], by decide⟩

/-- Error entry keeps the invariant: the table and the tree stay as they were (R272). -/
theorem errorEntry_inv {e : Engine} (h : e.Inv) (c : ErrCode) (w : Word) (hc : c ≠ .noError) :
    ({ e with errCode := c, errCmd := w, mode := .error } : Engine).Inv where
  loading h' := by cases h'
  built h' := by rcases h' with h | h | h <;> cases h
  failed _ := by
    cases hm : e.mode with
    | load => exact .inl ((h.loading hm).of_eq rfl rfl rfl rfl rfl rfl)
    | built => exact .inr ((h.built (.inl hm)).of_eq rfl rfl rfl rfl rfl rfl)
    | enc => exact .inr ((h.built (.inr (.inl hm))).of_eq rfl rfl rfl rfl rfl rfl)
    | dec => exact .inr ((h.built (.inr (.inr hm))).of_eq rfl rfl rfl rfl rfl rfl)
    | error =>
      rcases h.failed hm with h | h
      · exact .inl (h.of_eq rfl rfl rfl rfl rfl rfl)
      · exact .inr (h.of_eq rfl rfl rfl rfl rfl rfl)
  cursor h' := by cases h'
  record := Iff.intro (fun _ => hc) (fun _ => rfl)
  clean h' := absurd h' hc
  packed := h.packed
  queried := h.queried

/-- exec is E-EXEC's treatment of the pure Exec (R148, R151). -/
theorem exec_eq (i : Instr) (s : State) :
    exec i s = settle (latched i s) (execCommand s.engine i (latched i s).operand) s := by
  cases i <;>
  · simp only [exec, execNop, execClear, execLoadSym, execBuild, execQueryCode, execEncStart, execEncSym, execEncFlush,
      execDecStart, execDecByte, execDecEnd, runCommand, execCommand, ruleOf]
    split <;> rfl

/-- A sequence of commands that all succeed keeps the invariant (R91, R151). -/
theorem runPass_inv (cs : List Issued) :
    ∀ {e e' : Engine} {l : List Byte}, e.Inv → runPass e cs = some (e', l) → e'.Inv := by
  induction cs with
  | nil =>
    intro e e' l h hr
    simp only [runPass, Option.some.injEq, Prod.mk.injEq] at hr
    exact hr.1 ▸ h
  | cons c rest ih =>
    intro e e' l h hr
    rcases execCommand_sound h c.instr c.operand with ⟨e1, items, hx, h1, _⟩ | ⟨code, hx, _⟩
    · cases hp : runPass e1 rest with
      | none => simp [runPass, hx, hp] at hr
      | some p =>
        simp only [runPass, hx, hp, Option.some.injEq, Prod.mk.injEq] at hr
        exact hr.1 ▸ ih h1 (l := p.2) hp
    · simp [runPass, hx] at hr

end Sys2Proof.Machine
end

