-- ==== Sys2Proof/Laws/State.lean ====
section
/-! SUPPORT. One lemma per field of State for each named update, so that no proof unfolds a record update. -/

namespace Sys2Proof.Machine

/-! Error entry (R272). -/

@[simp] theorem errorEntry_engine (c : ErrCode) (w : Word) (s : State) : (errorEntry c w s).engine = { s.engine with errCode := c, errCmd := w, mode := .error } := rfl
@[simp] theorem errorEntry_busy (c : ErrCode) (w : Word) (s : State) : (errorEntry c w s).busy = false := rfl
@[simp] theorem errorEntry_cur (c : ErrCode) (w : Word) (s : State) : (errorEntry c w s).cur = none := rfl
@[simp] theorem errorEntry_pending (c : ErrCode) (w : Word) (s : State) : (errorEntry c w s).pending = s.pending := rfl
@[simp] theorem errorEntry_out (c : ErrCode) (w : Word) (s : State) : (errorEntry c w s).out = s.out := rfl
@[simp] theorem errorEntry_overrun (c : ErrCode) (w : Word) (s : State) : (errorEntry c w s).overrun = s.overrun := rfl
@[simp] theorem errorEntry_intDone (c : ErrCode) (w : Word) (s : State) : (errorEntry c w s).intDone = s.intDone := rfl
@[simp] theorem errorEntry_intErr (c : ErrCode) (w : Word) (s : State) : (errorEntry c w s).intErr = true := rfl
@[simp] theorem errorEntry_intEn (c : ErrCode) (w : Word) (s : State) : (errorEntry c w s).intEn = s.intEn := rfl
@[simp] theorem errorEntry_arg0 (c : ErrCode) (w : Word) (s : State) : (errorEntry c w s).arg0 = s.arg0 := rfl
@[simp] theorem errorEntry_arg1 (c : ErrCode) (w : Word) (s : State) : (errorEntry c w s).arg1 = s.arg1 := rfl
@[simp] theorem errorEntry_params (c : ErrCode) (w : Word) (s : State) : (errorEntry c w s).params = s.params := rfl
@[simp] theorem errorEntry_rst (c : ErrCode) (w : Word) (s : State) : (errorEntry c w s).rst = s.rst := rfl
@[simp] theorem errorEntry_rdata (c : ErrCode) (w : Word) (s : State) : (errorEntry c w s).rdata = s.rdata := rfl
@[simp] theorem errorEntry_agenda (c : ErrCode) (w : Word) (s : State) : (errorEntry c w s).agenda = s.agenda := rfl

/-! Reset (R301). -/

@[simp] theorem resetBlock_engine (s : State) : (resetBlock s).engine = Engine.reset := rfl
@[simp] theorem resetBlock_busy (s : State) : (resetBlock s).busy = false := rfl
@[simp] theorem resetBlock_cur (s : State) : (resetBlock s).cur = none := rfl
@[simp] theorem resetBlock_pending (s : State) : (resetBlock s).pending = none := rfl
@[simp] theorem resetBlock_out (s : State) : (resetBlock s).out = [] := rfl
@[simp] theorem resetBlock_overrun (s : State) : (resetBlock s).overrun = false := rfl
@[simp] theorem resetBlock_intDone (s : State) : (resetBlock s).intDone = false := rfl
@[simp] theorem resetBlock_intErr (s : State) : (resetBlock s).intErr = false := rfl
@[simp] theorem resetBlock_intEn (s : State) : (resetBlock s).intEn = 0 := rfl
@[simp] theorem resetBlock_arg0 (s : State) : (resetBlock s).arg0 = 0 := rfl
@[simp] theorem resetBlock_arg1 (s : State) : (resetBlock s).arg1 = 0 := rfl
@[simp] theorem resetBlock_params (s : State) : (resetBlock s).params = s.params := rfl
@[simp] theorem resetBlock_rst (s : State) : (resetBlock s).rst = s.rst := rfl
@[simp] theorem resetBlock_rdata (s : State) : (resetBlock s).rdata = s.rdata := rfl
@[simp] theorem resetBlock_agenda (s : State) : (resetBlock s).agenda = s.agenda := rfl

/-! E-DONE (R150). -/

@[simp] theorem engineDone_engine (p : Pending) (s : State) : (engineDone p s).engine = p.next := rfl
@[simp] theorem engineDone_busy (p : Pending) (s : State) : (engineDone p s).busy = false := rfl
@[simp] theorem engineDone_cur (p : Pending) (s : State) : (engineDone p s).cur = none := rfl
@[simp] theorem engineDone_pending (p : Pending) (s : State) : (engineDone p s).pending = none := rfl
@[simp] theorem engineDone_out (p : Pending) (s : State) : (engineDone p s).out = if runsClear s then [] else s.out := rfl
@[simp] theorem engineDone_overrun (p : Pending) (s : State) : (engineDone p s).overrun = if runsClear s then false else s.overrun := rfl
@[simp] theorem engineDone_intDone (p : Pending) (s : State) : (engineDone p s).intDone = true := rfl
@[simp] theorem engineDone_intErr (p : Pending) (s : State) : (engineDone p s).intErr = s.intErr := rfl
@[simp] theorem engineDone_intEn (p : Pending) (s : State) : (engineDone p s).intEn = s.intEn := rfl
@[simp] theorem engineDone_arg0 (p : Pending) (s : State) : (engineDone p s).arg0 = s.arg0 := rfl
@[simp] theorem engineDone_arg1 (p : Pending) (s : State) : (engineDone p s).arg1 = s.arg1 := rfl
@[simp] theorem engineDone_params (p : Pending) (s : State) : (engineDone p s).params = s.params := rfl
@[simp] theorem engineDone_rst (p : Pending) (s : State) : (engineDone p s).rst = s.rst := rfl
@[simp] theorem engineDone_rdata (p : Pending) (s : State) : (engineDone p s).rdata = s.rdata := rfl
@[simp] theorem engineDone_agenda (p : Pending) (s : State) : (engineDone p s).agenda = s.agenda := rfl

/-! INT_PEND write (R145). -/

@[simp] theorem writeIntPend_engine (v : Word) (s : State) : (writeIntPend v s).engine = s.engine := rfl
@[simp] theorem writeIntPend_busy (v : Word) (s : State) : (writeIntPend v s).busy = s.busy := rfl
@[simp] theorem writeIntPend_cur (v : Word) (s : State) : (writeIntPend v s).cur = s.cur := rfl
@[simp] theorem writeIntPend_pending (v : Word) (s : State) : (writeIntPend v s).pending = s.pending := rfl
@[simp] theorem writeIntPend_out (v : Word) (s : State) : (writeIntPend v s).out = s.out := rfl
@[simp] theorem writeIntPend_overrun (v : Word) (s : State) : (writeIntPend v s).overrun = s.overrun := rfl
@[simp] theorem writeIntPend_intDone (v : Word) (s : State) : (writeIntPend v s).intDone = (s.intDone && !v.getLsbD 0) := rfl
@[simp] theorem writeIntPend_intErr (v : Word) (s : State) : (writeIntPend v s).intErr = (s.intErr && !v.getLsbD 1) := rfl
@[simp] theorem writeIntPend_intEn (v : Word) (s : State) : (writeIntPend v s).intEn = s.intEn := rfl
@[simp] theorem writeIntPend_arg0 (v : Word) (s : State) : (writeIntPend v s).arg0 = s.arg0 := rfl
@[simp] theorem writeIntPend_arg1 (v : Word) (s : State) : (writeIntPend v s).arg1 = s.arg1 := rfl
@[simp] theorem writeIntPend_params (v : Word) (s : State) : (writeIntPend v s).params = s.params := rfl
@[simp] theorem writeIntPend_rst (v : Word) (s : State) : (writeIntPend v s).rst = s.rst := rfl
@[simp] theorem writeIntPend_rdata (v : Word) (s : State) : (writeIntPend v s).rdata = s.rdata := rfl
@[simp] theorem writeIntPend_agenda (v : Word) (s : State) : (writeIntPend v s).agenda = s.agenda := rfl

/-! The command latched for a step (notes/assumptions/10.md). -/

@[simp] theorem withFetchWord_engine (s : State) (nbits w : Nat) : (s.withFetchWord nbits w).engine = s.engine := rfl
@[simp] theorem withFetchWord_busy (s : State) (nbits w : Nat) : (s.withFetchWord nbits w).busy = true := rfl
@[simp] theorem withFetchWord_cur (s : State) (nbits w : Nat) : (s.withFetchWord nbits w).cur = some ⟨tableWord nbits w, argOperand s⟩ := rfl
@[simp] theorem withFetchWord_pending (s : State) (nbits w : Nat) : (s.withFetchWord nbits w).pending = none := rfl
@[simp] theorem withFetchWord_out (s : State) (nbits w : Nat) : (s.withFetchWord nbits w).out = s.out := rfl
@[simp] theorem withFetchWord_overrun (s : State) (nbits w : Nat) : (s.withFetchWord nbits w).overrun = s.overrun := rfl
@[simp] theorem withFetchWord_intDone (s : State) (nbits w : Nat) : (s.withFetchWord nbits w).intDone = s.intDone := rfl
@[simp] theorem withFetchWord_intErr (s : State) (nbits w : Nat) : (s.withFetchWord nbits w).intErr = s.intErr := rfl
@[simp] theorem withFetchWord_intEn (s : State) (nbits w : Nat) : (s.withFetchWord nbits w).intEn = s.intEn := rfl
@[simp] theorem withFetchWord_arg0 (s : State) (nbits w : Nat) : (s.withFetchWord nbits w).arg0 = s.arg0 := rfl
@[simp] theorem withFetchWord_arg1 (s : State) (nbits w : Nat) : (s.withFetchWord nbits w).arg1 = s.arg1 := rfl
@[simp] theorem withFetchWord_params (s : State) (nbits w : Nat) : (s.withFetchWord nbits w).params = s.params := rfl
@[simp] theorem withFetchWord_rst (s : State) (nbits w : Nat) : (s.withFetchWord nbits w).rst = false := rfl
@[simp] theorem withFetchWord_rdata (s : State) (nbits w : Nat) : (s.withFetchWord nbits w).rdata = s.rdata := rfl
@[simp] theorem withFetchWord_agenda (s : State) (nbits w : Nat) : (s.withFetchWord nbits w).agenda = engineFirst s.agenda := rfl

/-! Updates with cases. -/

theorem writeCmd_busy_dropped (w : Word) (s : State) (h : s.busy = true) :
    writeCmd w s = { s with overrun := true, intErr := true } := by simp [writeCmd, h]

theorem writeCmd_discarded (w : Word) (s : State) (hb : s.busy = false) (hm : s.engine.mode = .error)
    (hw : w ≠ encode .clear) : writeCmd w s = s := by simp [writeCmd, hb, hm, hw]

theorem writeCmd_latched (w : Word) (s : State) (hb : s.busy = false)
    (h : s.engine.mode ≠ .error ∨ w = encode .clear) :
    writeCmd w s = { s with cur := some ⟨w, argOperand s⟩, busy := true } := by
  rcases h with h | h <;> simp [writeCmd, hb, h]

/-- Everything a CMD write can do (R143). -/
theorem writeCmd_cases (w : Word) (s : State) :
    (s.busy = true ∧ writeCmd w s = { s with overrun := true, intErr := true }) ∨
    (s.busy = false ∧ s.engine.mode = .error ∧ w ≠ encode .clear ∧ writeCmd w s = s) ∨
    (s.busy = false ∧ (s.engine.mode ≠ .error ∨ w = encode .clear) ∧
      writeCmd w s = { s with cur := some ⟨w, argOperand s⟩, busy := true }) := by
  by_cases hb : s.busy = true
  · exact .inl ⟨hb, writeCmd_busy_dropped w s hb⟩
  · rw [Bool.not_eq_true] at hb
    by_cases h : s.engine.mode ≠ .error ∨ w = encode .clear
    · exact .inr (.inr ⟨hb, h, writeCmd_latched w s hb h⟩)
    · rw [not_or, not_not] at h
      exact .inr (.inl ⟨hb, h.1, h.2, writeCmd_discarded w s hb h.1 h.2⟩)

theorem enginePush_room (p : Pending) (b : Byte) (rest : List Run) (s : State)
    (h : s.out.length < s.params.outDepth) :
    enginePush p b rest s = { s with out := s.out ++ [b], pending := some { p with items := rest } } := by
  simp [enginePush, h]

theorem enginePush_hold (p : Pending) (b : Byte) (rest : List Run) (s : State)
    (h : s.params.outDepth ≤ s.out.length) : enginePush p b rest s = s := by
  simp [enginePush, Nat.not_lt.mpr h]

end Sys2Proof.Machine
end

