-- ==== Sys2Proof/Laws/Step.lean ====
section
/-! SUPPORT. Everything one step can do: inversion of `step`, of the engine's move and of a host access (spec rules R91, R140 to
R150, R300). -/

namespace Sys2Proof.Machine

/-- Everything the engine's move can do (R148 to R150). -/
theorem engineStep_cases (s : State) :
    (s.rst = true ∧ engineStep s = .next s) ∨
    (s.rst = false ∧ ∃ p b rest, s.pending = some p ∧ popItem p.items = some (b, rest) ∧
      engineStep s = .next (enginePush p b rest s)) ∨
    (s.rst = false ∧ ∃ p, s.pending = some p ∧ popItem p.items = none ∧ engineStep s = .next (engineDone p s)) ∨
    (s.rst = false ∧ s.pending = none ∧ ∃ c, s.cur = some c ∧ engineStep s = engineExec c s) ∨
    (s.rst = false ∧ s.pending = none ∧ s.cur = none ∧ engineStep s = .next s) := by
  by_cases hr : s.rst = true
  · exact .inl ⟨hr, by simp only [engineStep, hr, if_true]⟩
  · have hr' : s.rst = false := by simpa using hr
    cases hp : s.pending with
    | some p =>
      cases hi : popItem p.items with
      | some x =>
        exact .inr (.inl ⟨hr', p, x.1, x.2, rfl, hi, by simp only [engineStep, hr', hp, hi]; rfl⟩)
      | none => exact .inr (.inr (.inl ⟨hr', p, rfl, hi, by simp only [engineStep, hr', hp, hi]; rfl⟩))
    | none =>
      cases hc : s.cur with
      | some c => exact .inr (.inr (.inr (.inl ⟨hr', rfl, c, rfl, by simp only [engineStep, hr', hp, hc]; rfl⟩)))
      | none => exact .inr (.inr (.inr (.inr ⟨hr', rfl, rfl, by simp only [engineStep, hr', hp, hc]; rfl⟩)))

/-- E-EXEC (R148): error entry for an illegal word, else Exec of the decoded command. -/
theorem engineExec_eq (c : Command) (s : State) (hc : s.cur = some c) :
    engineExec c s =
      match decode c.word with
      | .ok i => settle c (execCommand s.engine i c.operand) s
      | .error _ => .next (errorEntry .illegalCmd c.word s) := by
  cases hd : decode c.word with
  | error e => simp only [engineExec, hd]
  | ok i => simp only [engineExec, hd, exec_eq, latched, hc, Option.getD_some]

/-! Addresses and offsets (R80, R86, R110). -/

/-- An address of the window is HUFF_BASE plus its offset. -/
theorem windowOffset_eq_some {p : Params} {addr : Nat} {off : BitVec 8} (h : windowOffset p addr = some off) :
    addr = p.huffBase + off.toNat := by
  simp only [windowOffset] at h
  split at h
  · simp only [Option.some.injEq] at h
    subst h
    simp only [BitVec.toNat_ofNat]
    omega
  · cases h

/-- Every offset is an address of the window. -/
@[simp] theorem windowOffset_base (p : Params) (off : BitVec 8) : windowOffset p (p.huffBase + off.toNat) = some off := by
  have hlt := off.isLt
  simp only [windowOffset]
  rw [if_pos (by omega), show p.huffBase + off.toNat - p.huffBase = off.toNat by omega, BitVec.ofNat_toNat,
    BitVec.setWidth_eq]

/-- An access acts when it has four bytes and an aligned offset (R86). -/
theorem acts_iff (off : BitVec 8) (size : Nat) : acts off size = true ↔ size = 4 ∧ off.toNat % 4 = 0 := by
  have h : off.extractLsb' 0 2 = 0 ↔ off.toNat % 4 = 0 := by
    rw [← BitVec.toNat_inj]; simp
  simp only [acts, Bool.and_eq_true, beq_iff_eq, h]

/-- CTRL stands at offset 0x08 (R33). -/
theorem regAt_ctrl (off : BitVec 8) (h : off.toNat % 4 = 0) (hr : regAt off = .ctrl) : off.toNat = 0x08 := by
  revert off; decide

/-- Everything a host access can do (R86, R140, R141, R300). -/
theorem hostAccess_cases (a : Access) (s : State) :
    (s.rst = true ∧ hostAccess a s = .next s) ∨
    (s.rst = false ∧ ∃ off size, a = .read (s.params.huffBase + off.toNat) size ∧
      hostAccess a s = .next (hostRead off size s)) ∨
    (s.rst = false ∧ ∃ off size v, a = .write (s.params.huffBase + off.toNat) size v ∧
      hostAccess a s = .next (hostWrite off size v s)) ∨
    (s.rst = false ∧ hostAccess a s = .fault .outsideWindow) := by
  by_cases hr : s.rst = true
  · exact .inl ⟨hr, by simp only [hostAccess, hr, if_true]⟩
  · have hr' : s.rst = false := by simpa using hr
    cases a with
    | read addr size =>
      cases ho : windowOffset s.params addr with
      | some off => exact .inr (.inl ⟨hr', off, size, by rw [windowOffset_eq_some ho], by simp only [hostAccess, hr', ho]; rfl⟩)
      | none => exact .inr (.inr (.inr ⟨hr', by simp only [hostAccess, hr', ho]; rfl⟩))
    | write addr size v =>
      cases ho : windowOffset s.params addr with
      | some off => exact .inr (.inr (.inl ⟨hr', off, size, v, by rw [windowOffset_eq_some ho], by simp only [hostAccess, hr', ho]; rfl⟩))
      | none => exact .inr (.inr (.inr ⟨hr', by simp only [hostAccess, hr', ho]; rfl⟩))

/-- A read changes OUT at most, and the read port (R88, R140). -/
theorem hostRead_frame (off : BitVec 8) (size : Nat) (s : State) :
    hostRead off size s = { s with out := (hostRead off size s).out, rdata := (hostRead off size s).rdata } ∧
      ((hostRead off size s).out = s.out ∨ (hostRead off size s).out = s.out.tail) := by
  simp only [hostRead]
  split
  · cases regAt off <;> simp [popOut]
  · simp

/-- Everything an acting write can do (R141 to R147). -/
theorem regWrite_cases (v : Word) (s : State) (r : Reg) :
    regWrite v s r = s ∨ (r = .ctrl ∧ v.getLsbD 0 = true ∧ regWrite v s r = resetBlock s) ∨ regWrite v s r = writeCmd v s ∨
    regWrite v s r = { s with arg0 := v } ∨ regWrite v s r = { s with arg1 := v } ∨
    regWrite v s r = writeIntPend v s ∨ regWrite v s r = { s with intEn := v.extractLsb' 0 3 } := by
  cases r with
  | ctrl =>
    by_cases h : v.getLsbD 0 = true
    · exact .inr (.inl ⟨rfl, h, by simp only [regWrite, writeCtrl, if_pos h]⟩)
    · exact .inl (by simp only [regWrite, writeCtrl, if_neg h])
  | _ => simp [regWrite]

/-- Everything a step can do (R91). -/
theorem step_cases (s : State) :
    (∃ rest, EngineMoves s rest ∧ step s = engineStep { s with agenda := rest }) ∨
    (∃ a rest, s.agenda = .host a :: rest ∧ step s = hostAccess a { s with agenda := rest }) ∨
    (∃ level rest, s.agenda = .rst level :: rest ∧ step s = .next (driveRst level { s with agenda := rest })) := by
  match h : s.agenda with
  | [] =>
    have hs : { s with agenda := [] } = s := by rw [← h]
    exact .inl ⟨[], .inl ⟨h, rfl⟩, by rw [hs]; simp only [step, h]⟩
  | .engine :: rest => exact .inl ⟨rest, .inr h, by simp only [step, h]⟩
  | .host a :: rest => exact .inr (.inl ⟨a, rest, rfl, by simp only [step, h]⟩)
  | .rst level :: rest => exact .inr (.inr ⟨level, rest, rfl, by simp only [step, h]⟩)

end Sys2Proof.Machine
end

