-- ==== Sys2Proof/Tests/Slice0.lean ====
section
/-! SUPPORT. Tests: the WellFormed smoke test, decoding of words written out from the spec's encodings, one or two single steps
an instruction with the results that spec/95_test_vectors.md gives, and a witness for the hypotheses of every statement. -/

open Sys2Proof Sys2Proof.Machine

namespace Sys2Proof.Tests

/-! ## Well-formedness: each check of R115 refuses -/

theorem test_wf_accepts : (⟨0x02, 0x61, 0⟩ : Fields).wf = true ∧ (⟨0x22, 0, 0⟩ : Fields).wf = true := by decide

theorem test_wf_refuses_reserved_bits : (⟨0x11, 0x61, 1⟩ : Fields).wf = false := by decide

theorem test_wf_refuses_reserved_opcode :
    (⟨0x05, 0, 0⟩ : Fields).wf = false ∧ (⟨0x13, 0, 0⟩ : Fields).wf = false ∧ (⟨0xFF, 0, 0⟩ : Fields).wf = false := by decide

theorem test_wf_refuses_immediate : (⟨0x00, 1, 0⟩ : Fields).wf = false ∧ (⟨0x20, 0x80, 0⟩ : Fields).wf = false := by decide

/-! ## Decoding: words bit by bit from R111 and R114 (RSV 31:16, IMM8 15:8, opcode 7:0) -/

theorem test_decode_nop : decode 0b0000000000000000_00000000_00000000 = .ok .nop := by rfl
theorem test_decode_clear : decode 0b0000000000000000_00000000_00000001 = .ok .clear := by rfl
theorem test_decode_loadSym : decode 0b0000000000000000_01100001_00000010 = .ok (.loadSym 0x61) := by rfl
theorem test_decode_build : decode 0b0000000000000000_00000000_00000011 = .ok .build := by rfl
theorem test_decode_queryCode : decode 0b0000000000000000_01100001_00000100 = .ok (.queryCode 0x61) := by rfl
theorem test_decode_encStart : decode 0b0000000000000000_00000000_00010000 = .ok .encStart := by rfl
theorem test_decode_encSym : decode 0b0000000000000000_11111111_00010001 = .ok (.encSym 0xFF) := by rfl
theorem test_decode_encFlush : decode 0b0000000000000000_00000000_00010010 = .ok .encFlush := by rfl
theorem test_decode_decStart : decode 0b0000000000000000_00000000_00100000 = .ok .decStart := by rfl
theorem test_decode_decByte : decode 0b0000000000000000_10000000_00100001 = .ok (.decByte 0x80) := by rfl
theorem test_decode_decEnd : decode 0b0000000000000000_00000000_00100010 = .ok .decEnd := by rfl

theorem test_decode_refuses :
    decode 0b0000000000000001_01100001_00010001 = .error .reservedBits ∧
    decode 0b1000000000000000_00000000_00000000 = .error .reservedBits ∧
    decode 0b0000000000000000_00000000_00000101 = .error .reservedOpcode ∧
    decode 0b0000000000000000_00000001_00000000 = .error .immNotZero := by decide

/-- Byte 0 of a register is bits 7:0 (R83): the opcode is the first byte. -/
theorem test_bytes_of_a_word : decodeBytes [0x02, 0x61, 0x00, 0x00, 0xAA] = .ok (.loadSym 0x61, [0xAA]) := by rfl

theorem test_table_word : decodeTableWord 16 0x0721 = some (.decByte 0x07) ∧ decodeTableWord 32 0x10000 = none := by decide

/-! ## Small states -/

/-- OUT_DEPTH = 4, HUFF_BASE = 0x300. -/
def params : Params := ⟨3, 3⟩

/-- The block with this engine state and this agenda, everything else as reset leaves it. -/
def box (e : Engine) (agenda : List Event) : State := { State.reset with engine := e, params := params, agenda := agenda }

/-- The same with a command latched. -/
def latch (e : Engine) (w : Word) (a : Quad) : State := { box e [] with cur := some ⟨w, a⟩, busy := true }

/-- The engine state after commands that all succeed, from reset. -/
def after (cs : List Issued) : Engine :=
  match runPass Engine.reset cs with
  | some (e, _) => e
  | none => Engine.reset

theorem after_inv (cs : List Issued) : (after cs).Inv := by
  simp only [after]
  cases h : runPass Engine.reset cs with
  | none => exact inv_reset
  | some p => exact runPass_inv cs (l := p.2) inv_reset h

/-- {a:3, b:1} of T-B1, loaded and built. -/
def twoLeaves : List Issued := loadAll [(0x61, 3), (0x62, 1)]
def two : List Issued := twoLeaves ++ [plain .build]

/-- {a:1, b:1, c:2} of T-B2, built. -/
def three : List Issued := loadAll [(0x61, 1), (0x62, 1), (0x63, 2)] ++ [plain .build]

/-- {a:1000} of T-B7, built. -/
def one : List Issued := loadAll [(0x61, 1000)] ++ [plain .build]

/-- {} of T-B10, built. -/
def zero : List Issued := [plain .build]

/-- What E-EXEC leaves: the committed engine state, PENDING with its items, BUSY and INT_PEND.ERR. -/
def pendingOf : Answer → Option (Engine × List Byte)
  | .next s => s.pending.map fun p => (p.next, itemsOf p.items)
  | .fault _ => none
  | .refused _ => none

/-- What error entry leaves: MODE = ERROR, the record, INT_PEND.ERR, BUSY; and that ACC, COUNT and NSYM are as before. -/
def errorOf (e : Engine) : Answer → Option (ErrCode × Word × Bool × Bool)
  | .next s =>
    if s.engine.mode = .error ∧ s.pending = none ∧ s.engine.acc = e.acc ∧ s.engine.count = e.count ∧ s.engine.nsym = e.nsym
    then some (s.engine.errCode, s.engine.errCmd, s.intErr, s.busy) else none
  | .fault _ => none
  | .refused _ => none

/-- STATUS after a step. -/
def statusOf : Answer → Option Word
  | .next s => some (statusWord s)
  | .fault _ => none
  | .refused _ => none

/-! ## Single steps, from spec/95_test_vectors.md -/

/-- T-C5: NOP emits nothing and changes nothing. -/
theorem test_nop : pendingOf (step (latch Engine.reset 0x00000000 0)) = some (Engine.reset, []) := by rfl

/-- T-X12: CLEAR in MODE = ERROR. -/
theorem test_clear :
    pendingOf (step (latch { Engine.reset with mode := .error, errCode := .badState, errCmd := 0x6111 } 0x00000001 0)) =
      some (Engine.reset, []) := by rfl

/-- T-C10: the operand is the frequency, PL is in key order (b before a). -/
theorem test_loadSym :
    (pendingOf (step (latch (after (loadAll [(0x61, 3)])) 0x00006202 1))).map (fun p => (p.1.node, p.1.pl, p.1.nsym)) =
      some ([⟨.leaf, 3, 0x61, 0, 0⟩, ⟨.leaf, 1, 0x62, 0, 0⟩], [1, 0], 2) := by decide

/-- T-X5: a symbol that is loaded already. -/
theorem test_loadSym_again :
    errorOf (after (loadAll [(0x61, 3)])) (step (latch (after (loadAll [(0x61, 3)])) 0x00006102 1)) =
      some (.dupSymbol, 0x00006102, true, false) := by decide

/-- T-B2: the merges of {a:1, b:1, c:2}, and the codes a = 00, b = 01, c = 1. -/
theorem test_build :
    (pendingOf (step (latch (after (loadAll [(0x61, 1), (0x62, 1), (0x63, 2)])) 0x00000003 0))).map (fun p =>
        (p.1.node.drop 3, p.1.root, p.1.mode, [0x61#8, 0x62#8, 0x63#8].map fun s => (codeAt p.1.code s).path)) =
      some ([⟨.internal, 2, 0x61, 0, 1⟩, ⟨.internal, 4, 0x61, 3, 2⟩], some 4, .built,
        [[false, false], [false, true], [true]]) := by decide

/-- T-X4: a second BUILD. -/
theorem test_build_again :
    errorOf (after two) (step (latch (after two) 0x00000003 0)) = some (.badState, 0x00000003, true, false) := by decide

/-- T-B13: CODE_LEN and CODE_BITS0 of 'a'. -/
theorem test_queryCode :
    (pendingOf (step (latch (after two) 0x00006104 0))).map (fun p => (codeLenWord p.1, codeBitsWord p.1 0)) =
      some (0x80610001, 0x00000001) := by decide

/-- T-B15: an absent symbol is no error. -/
theorem test_queryCode_absent :
    (pendingOf (step (latch (after two) 0x00007A04 0))).map (fun p => (codeLenWord p.1, codeBitsWord p.1 0)) =
      some (0x007A0000, 0) := by decide

/-- T-E9: a second pass starts with an empty accumulator and COUNT = 0. -/
theorem test_encStart :
    (pendingOf (step (latch (after (two ++ encodePass [0x61, 0x61, 0x61, 0x62])) 0x00000010 0))).map (fun p =>
      (p.1.mode, accState p.1, p.1.count)) = some (.enc, 0, 0) := by decide

/-- T-E2: the code 110 of 'b' in {a:5, b:2, c:1, d:1, r:2} goes to ACC bits 1, 2 and 3: 0x406 after "ab". -/
theorem test_encSym :
    (pendingOf (step (latch (after (loadAll [(0x61, 5), (0x62, 2), (0x63, 1), (0x64, 1), (0x72, 2)] ++
        [plain .build, plain .encStart, plain (.encSym 0x61)])) 0x00006211 0))).map (fun p => (accState p.1, p.1.count, p.2)) =
      some (0x406, 2, []) := by decide

/-- T-X8: SYM_ABSENT is checked before COUNT_OVERFLOW. -/
theorem test_encSym_absent :
    errorOf { after (two ++ [plain .encStart]) with count := BitVec.allOnes 64 }
        (step (latch { after (two ++ [plain .encStart]) with count := BitVec.allOnes 64 } 0x00006D11 0)) =
      some (.symAbsent, 0x00006D11, true, false) := by decide

/-- T-E1: "aaab" leaves 0x407; ENC_FLUSH emits 07 and closes the pass. -/
theorem test_encFlush :
    (pendingOf (step (latch (after (two ++ [plain .encStart, plain (.encSym 0x61), plain (.encSym 0x61), plain (.encSym 0x61),
        plain (.encSym 0x62)])) 0x00000012 0))).map (fun p => (p.1.mode, accState p.1, p.1.count, p.2)) =
      some (.built, 0, 4, [0x07]) := by decide

/-- T-D4: a one-symbol tree emits TOTAL items at once. -/
theorem test_decStart :
    (pendingOf (step (latch (after one) 0x00000020 3))).map (fun p => (p.1.mode, p.1.count, p.1.total, p.2)) =
      some (.dec, 3, 3, [0x61, 0x61, 0x61]) := by decide

/-- T-D8: FORMAT_EMPTY. -/
theorem test_decStart_empty :
    errorOf (after zero) (step (latch (after zero) 0x00000020 1)) = some (.formatEmpty, 0x00000020, true, false) := by
  decide

/-- T-D6: 07 with TOTAL = 5 is a a a b b. -/
theorem test_decByte :
    (pendingOf (step (latch (after (two ++ [⟨.decStart, 5⟩])) 0x00000721 0))).map (fun p => (p.1.count, p.2)) =
      some (5, [0x61, 0x61, 0x61, 0x62, 0x62]) := by decide

/-- By hand from the codes of T-B2 (c = 1, a = 00, b = 01) and R223: seven times c, and the last bit 0 leaves the cursor inside. -/
theorem test_decByte_spans :
    (pendingOf (step (latch (after (three ++ [⟨.decStart, 8⟩])) 0x00007F21 0))).map (fun p =>
        (p.1.count, p.1.pos == p.1.root, p.2)) =
      some (7, false, [0x63, 0x63, 0x63, 0x63, 0x63, 0x63, 0x63]) := by decide

/-- T-D1: DEC_END after the last symbol. -/
theorem test_decEnd :
    (pendingOf (step (latch (after (two ++ [⟨.decStart, 4⟩, plain (.decByte 0x07)])) 0x00000022 0))).map (fun p => p.1.mode) =
      some .built := by decide

/-- T-X10: DEC_END with COUNT = 8 and TOTAL = 9. -/
theorem test_decEnd_truncated :
    errorOf (after (two ++ [⟨.decStart, 9⟩, plain (.decByte 0x07)]))
        (step (latch (after (two ++ [⟨.decStart, 9⟩, plain (.decByte 0x07)])) 0x00000022 0)) =
      some (.truncated, 0x00000022, true, false) := by decide

/-- T-X1: a reserved opcode, STATUS = 0x0000010E. -/
theorem test_illegal : statusOf (step (latch Engine.reset 0x00000005 0)) = some 0x0000010E := by decide

/-- T-C13: a CMD write while BUSY; STATUS = 0x00010013. -/
theorem test_overrun :
    statusOf (step { latch (after one) 0x00000020 1000 with agenda := [.host (.write 0x310 4 0)] }) = some 0x00010013 := by
  decide

/-- The first step after reset runs the word placed for it (no fault, no refusal). -/
theorem test_first_step : (match step (State.reset.withFetchWord 16 0x6102) with
    | .next s => s.pending.map fun p => (p.next.nsym, p.next.has 0x61)
    | _ => none) = some (1, true) := by rfl

/-! ## Witnesses: a state and operands that meet each statement's hypotheses, for each clause -/

theorem built_after (cs : List Issued) (h : (after cs).mode = .built ∨ (after cs).mode = .enc ∨ (after cs).mode = .dec) :
    Built (after cs) := (after_inv cs).built h

theorem loading_after (cs : List Issued) (h : (after cs).mode = .load) : Loading (after cs) := (after_inv cs).loading h

/-- A state with an engine state that meets the invariant, outside MODE = ERROR, at rest. -/
theorem box_inv (e : Engine) (agenda : List Event) (h : e.Inv) : (box e agenda).Inv where
  engine := h
  latch := rfl
  pending p hp := by cases hp
  bounded := Nat.zero_le _
  failed _ c hc := by cases hc
  held hr := by cases hr

theorem witness_DecodeOfEncode : (Instr.loadSym 0xFF).wf = true ∧ Instr.decEnd.wf = true := by decide

theorem witness_LegalWord : decode 0x0000FF21 = .ok (.decByte 0xFF) := by rfl

theorem witness_StepRuns : ∃ s rest c i, EngineMoves s rest ∧ ExecReady s c ∧ decode c.word = .ok i :=
  ⟨latch (after two) 0x6104 0, [], ⟨0x6104, 0⟩, .queryCode 0x61, .inl ⟨rfl, rfl⟩, ⟨rfl, rfl, rfl⟩, rfl⟩

theorem witness_StepRuns_scheduled : ∃ s rest c i, EngineMoves s rest ∧ rest ≠ [] ∧ ExecReady s c ∧ decode c.word = .ok i :=
  ⟨{ latch (after two) 0x6104 0 with agenda := [.engine, .engine] }, [.engine], ⟨0x6104, 0⟩, .queryCode 0x61, .inr rfl,
    by decide, ⟨rfl, rfl, rfl⟩, rfl⟩

theorem witness_IllegalWord : ∃ s rest c x, EngineMoves s rest ∧ ExecReady s c ∧ decode c.word = .error x :=
  ⟨latch Engine.reset 0x5 0, [], ⟨0x5, 0⟩, .reservedOpcode, .inl ⟨rfl, rfl⟩, ⟨rfl, rfl, rfl⟩, rfl⟩

theorem witness_ErrorEntry : ∃ s c i code, ExecReady s c ∧ decode c.word = .ok i ∧
    execCommand s.engine i c.operand = .err code :=
  ⟨latch (after twoLeaves) 0x6102 1, ⟨0x6102, 1⟩, .loadSym 0x61, .dupSymbol, ⟨rfl, rfl, rfl⟩, rfl, by decide⟩

theorem witness_ModeLegality_illegal : ∃ s c x, ExecReady s c ∧ decode c.word = .error x :=
  ⟨latch Engine.reset 0x100 0, ⟨0x100, 0⟩, .immNotZero, ⟨rfl, rfl, rfl⟩, rfl⟩

theorem witness_ModeLegality_badState : ∃ s c, ExecReady s c ∧ decode c.word = .ok .encFlush ∧ s.engine.mode ≠ .enc :=
  ⟨latch (after two) 0x12 0, ⟨0x12, 0⟩, ⟨rfl, rfl, rfl⟩, rfl, by decide⟩

theorem witness_ModeLegality_success : ∃ s c e' items, ExecReady s c ∧ decode c.word = .ok .encStart ∧
    exec .encStart s = .next { s with pending := some ⟨e', items⟩ } :=
  ⟨latch { Engine.reset with mode := .built } 0x10 0, ⟨0x10, 0⟩, _, _, ⟨rfl, rfl, rfl⟩, rfl, rfl⟩

/-- The clause that is the model's reading (notes/assumptions/13.md): a state no run reaches. -/
theorem witness_ModeLegality_error : ∃ s c, ExecReady s c ∧ decode c.word = .ok .nop ∧ s.engine.mode = .error ∧
    Instr.nop ≠ .clear :=
  ⟨latch { Engine.reset with mode := .error, errCode := .badState, errCmd := 0x6111 } 0x0 0, ⟨0x0, 0⟩, ⟨rfl, rfl, rfl⟩, rfl, rfl,
    by decide⟩

theorem witness_ModeLegality_clear_in_error : ∃ s c, ExecReady s c ∧ decode c.word = .ok .clear ∧ s.engine.mode = .error :=
  ⟨latch { Engine.reset with mode := .error, errCode := .badState, errCmd := 0x6111 } 0x1 0, ⟨0x1, 0⟩, ⟨rfl, rfl, rfl⟩, rfl, rfl⟩

theorem witness_Nop : (latch (after two) 0 0).engine.mode ≠ .error := by decide

theorem witness_LoadSym : ∃ s c, ExecReady s c ∧ s.engine.mode = .load ∧ s.engine.has 0x62 = false ∧
    s.engine.node.length < 511 :=
  ⟨latch (after (loadAll [(0x61, 3)])) 0x6202 1, ⟨0x6202, 1⟩, ⟨rfl, rfl, rfl⟩, by decide⟩

theorem witness_LoadSym_last_entry : ∃ s c, ExecReady s c ∧ s.engine.mode = .load ∧ s.engine.has 0x62 = false ∧
    s.engine.node.length = 510 :=
  ⟨latch { Engine.reset with node := List.replicate 510 Node.free } 0x6202 1, ⟨0x6202, 1⟩, ⟨rfl, rfl, rfl⟩, rfl,
    by decide, List.length_replicate⟩

theorem witness_LoadSymKeeps : ∃ s c, ExecReady s c ∧ s.engine.mode = .load ∧ Loading s.engine ∧ s.engine.has 0x62 = false :=
  ⟨latch (after (loadAll [(0x61, 3)])) 0x6202 1, ⟨0x6202, 1⟩, ⟨rfl, rfl, rfl⟩, by decide,
    loading_after (loadAll [(0x61, 3)]) (by decide), by decide⟩

theorem witness_DupSymbol : ∃ s c, ExecReady s c ∧ s.engine.mode = .load ∧ s.engine.has 0x61 = true :=
  ⟨latch (after twoLeaves) 0x6102 1, ⟨0x6102, 1⟩, ⟨rfl, rfl, rfl⟩, by decide⟩

theorem witness_Merge : ∃ (nodes : List Node) (a b : NodeIdx), nodes.length < 511 ∧
    (nodeAt nodes a).freq.toNat + (nodeAt nodes b).freq.toNat < 2 ^ 72 ∧ (nodeAt nodes a).freq.toNat = 2 ^ 64 - 1 :=
  ⟨[⟨.leaf, 0xFFFFFFFFFFFFFFFF, 0x61, 0, 0⟩, ⟨.leaf, 0xFFFFFFFFFFFFFFFF, 0x62, 0, 0⟩], 0, 1, by decide⟩

theorem witness_Build : (after twoLeaves).mode = .load ∧ Loading (after twoLeaves) ∧ (after twoLeaves).nsym ≠ 0 :=
  ⟨by decide, loading_after _ (by decide), by decide⟩

theorem witness_Build_empty : Engine.reset.mode = .load ∧ Loading Engine.reset ∧ Engine.reset.nsym = 0 :=
  ⟨rfl, loading_reset, rfl⟩

theorem witness_CodeLengths : Built (after two) ∧ (after two).has 0x63 = false ∧ (after two).has 0x61 = true ∧
    (after two).nsym ≠ 1 :=
  ⟨built_after _ (by decide), by decide⟩

theorem witness_CodeLengths_one : Built (after one) ∧ (after one).has 0x61 = true ∧ (after one).nsym = 1 :=
  ⟨built_after _ (by decide), by decide⟩

theorem witness_PrefixFree : Built (after two) ∧ (after two).has 0x61 = true ∧ (after two).has 0x62 = true ∧ 0x61#8 ≠ 0x62 :=
  ⟨built_after _ (by decide), by decide⟩

theorem witness_EveryBitSequence : Built (after one) ∧ (after one).nsym ≠ 0 ∧ (List.replicate 255 true).length = 255 :=
  ⟨built_after _ (by decide), by decide, List.length_replicate⟩

theorem witness_CodeLengthsFill : Built (after three) ∧ (after three).nsym ≠ 0 :=
  ⟨built_after _ (by decide), by decide⟩

theorem witness_BuildDependsOnSet : ∃ l1 l2 : List (Byte × Quad), (l1.map Prod.fst).Nodup ∧ l1.Perm l2 ∧ l1 ≠ l2 :=
  ⟨[(0x61, 1), (0x62, 1)], [(0x62, 1), (0x61, 1)], by decide, by decide, by decide⟩

theorem witness_QueryCode : (after two).mode = .built ∧ (after (two ++ [plain .encStart])).mode = .enc ∧
    (after (two ++ [⟨.decStart, 4⟩])).mode = .dec := by decide

theorem witness_PackBit : ∃ e1 e2 : Engine, e1.accCnt = 7 ∧ e2.accCnt ≠ 7 :=
  ⟨{ Engine.reset with accCnt := 7 }, { Engine.reset with accCnt := 6 }, by decide⟩

theorem witness_EncStart : (latch (after two) 0x10 0).engine.mode = .built := by decide

theorem witness_EncSym : ∃ e : Engine, e.mode = .enc ∧ e.acc.toNat < 2 ^ e.accCnt.toNat ∧ (codeAt e.code 0x61).valid = true ∧
    e.count ≠ BitVec.allOnes 64 :=
  ⟨after (two ++ [plain .encStart, plain (.encSym 0x61)]), by decide⟩

theorem witness_EncSym_absent : ∃ s c, ExecReady s c ∧ s.engine.mode = .enc ∧ (codeAt s.engine.code 0x6D).valid = false :=
  ⟨latch (after (two ++ [plain .encStart])) 0x6D11 0, ⟨0x6D11, 0⟩, ⟨rfl, rfl, rfl⟩, by decide⟩

theorem witness_EncSym_overflow : ∃ s c, ExecReady s c ∧ s.engine.mode = .enc ∧ (codeAt s.engine.code 0x61).valid = true ∧
    s.engine.count = BitVec.allOnes 64 :=
  ⟨latch { after (two ++ [plain .encStart]) with count := BitVec.allOnes 64 } 0x6111 0, ⟨0x6111, 0⟩, ⟨rfl, rfl, rfl⟩,
    by decide⟩

theorem witness_EncFlush : ∃ e1 e2 : Engine, e1.mode = .enc ∧ e1.accCnt = 0 ∧ e2.mode = .enc ∧ e2.accCnt ≠ 0 :=
  ⟨after (two ++ [plain .encStart]), after (two ++ [plain .encStart, plain (.encSym 0x61)]), by decide⟩

theorem witness_PackedStream : (after two).mode = .built ∧ (∀ b ∈ [0x61#8, 0x62#8], (codeAt (after two).code b).valid = true) ∧
    [0x61#8, 0x62#8].length < 2 ^ 64 := by decide

theorem witness_WalkBit_leaf : ∃ (e : Engine) (p : NodeIdx), e.pos = some p ∧ (nodeAt e.node p).kind = .internal ∧
    (nodeAt e.node (nodeAt e.node p).right).kind = .leaf ∧ (nodeAt e.node (nodeAt e.node p).left).kind ≠ .leaf :=
  ⟨after (three ++ [⟨.decStart, 4⟩]), 4, by decide⟩

theorem witness_DecStart_empty : ∃ s c, ExecReady s c ∧ s.engine.mode = .built ∧ Built s.engine ∧ s.engine.nsym = 0 ∧
    c.operand ≠ 0 :=
  ⟨latch (after zero) 0x20 1, ⟨0x20, 1⟩, ⟨rfl, rfl, rfl⟩, by decide, built_after zero (by decide),
    by decide⟩

theorem witness_DecStart_zero : ∃ s c, ExecReady s c ∧ s.engine.mode = .built ∧ Built s.engine ∧ s.engine.nsym ≠ 1 ∧
    s.engine.nsym = 0 ∧ c.operand = 0 :=
  ⟨latch (after zero) 0x20 0, ⟨0x20, 0⟩, ⟨rfl, rfl, rfl⟩, by decide, built_after zero (by decide),
    by decide⟩

theorem witness_DecStart_one : ∃ s c, ExecReady s c ∧ s.engine.mode = .built ∧ Built s.engine ∧ s.engine.nsym = 1 ∧
    c.operand ≠ 0 :=
  ⟨latch (after one) 0x20 1000, ⟨0x20, 1000⟩, ⟨rfl, rfl, rfl⟩, by decide, built_after one (by decide),
    by decide⟩

theorem witness_DecStart_open : ∃ s c, ExecReady s c ∧ s.engine.mode = .built ∧ Built s.engine ∧ s.engine.nsym = 2 ∧
    c.operand ≠ 0 :=
  ⟨latch (after two) 0x20 4, ⟨0x20, 4⟩, ⟨rfl, rfl, rfl⟩, by decide, built_after two (by decide),
    by decide⟩

theorem witness_DecByte : ∃ e : Engine, e.mode = .dec ∧ Built e ∧ CursorOk e ∧ e.count ≠ e.total :=
  ⟨after (two ++ [⟨.decStart, 4⟩]), by decide, built_after _ (by decide),
    (after_inv _).cursor (by decide), by decide⟩

theorem witness_DecByte_after_last : ∃ e : Engine, e.mode = .dec ∧ e.count = e.total ∧ e.total ≠ 0 :=
  ⟨after (two ++ [⟨.decStart, 4⟩, plain (.decByte 0x07)]), by decide⟩

theorem witness_CodeBits : ∃ e : Engine, Built e ∧ 2 ≤ e.nsym.toNat ∧ e.has 0x62 = true ∧ e.pos = e.root ∧
    e.count.toNat < e.total.toNat :=
  ⟨after (three ++ [⟨.decStart, 4⟩]), built_after _ (by decide), by decide⟩

theorem witness_DecEnd : ∃ s c, ExecReady s c ∧ s.engine.mode = .dec ∧ s.engine.total.toNat ≤ s.engine.count.toNat :=
  ⟨latch (after (two ++ [⟨.decStart, 4⟩, plain (.decByte 0x07)])) 0x22 0, ⟨0x22, 0⟩, ⟨rfl, rfl, rfl⟩, by decide⟩

theorem witness_DecEnd_truncated : ∃ s c, ExecReady s c ∧ s.engine.mode = .dec ∧ s.engine.count.toNat < s.engine.total.toNat :=
  ⟨latch (after (two ++ [⟨.decStart, 1⟩])) 0x22 0, ⟨0x22, 0⟩, ⟨rfl, rfl, rfl⟩, by decide⟩

theorem witness_RoundTrip : ([0x61, 0x61, 0x61, 0x62] : List Byte).length < 2 ^ 64 ∧ ([] : List Byte).length < 2 ^ 64 := by decide

/-- W-1: "aaab" is the 29-byte file the spec writes out, and comes back from it. -/
theorem test_w1 :
    encodeFile Engine.reset [0x61, 0x61, 0x61, 0x62] =
      some [0x02, 0, 0x61, 3, 0, 0, 0, 0, 0, 0, 0, 0x62, 1, 0, 0, 0, 0, 0, 0, 0, 4, 0, 0, 0, 0, 0, 0, 0, 0x07] ∧
    decodeFile Engine.reset [0x02, 0, 0x61, 3, 0, 0, 0, 0, 0, 0, 0, 0x62, 1, 0, 0, 0, 0, 0, 0, 0, 4, 0, 0, 0, 0, 0, 0, 0, 0x07] =
      some [0x61, 0x61, 0x61, 0x62] := by decide

/-- The first and last lines of P-1 (encode "aaab"), by hand from R251 and R120: only LOADF writes ARG0 and ARG1. -/
theorem test_listing_encode :
    issueAll (encodeCommands [0x61, 0x61, 0x61, 0x62]) =
      [.cmd .clear, .sync, .wr .arg0 3, .wr .arg1 0, .cmd (.loadSym 0x61), .sync, .wr .arg0 1, .wr .arg1 0,
        .cmd (.loadSym 0x62), .sync, .cmd .build, .sync, .cmd .encStart, .sync, .cmd (.encSym 0x61), .sync,
        .cmd (.encSym 0x61), .sync, .cmd (.encSym 0x61), .sync, .cmd (.encSym 0x62), .sync, .cmd .encFlush, .sync] := by
  decide

/-- P-2 (decode "aaab"), by hand from R252 and R120: only LOADF and DSTART write ARG0 and ARG1. -/
theorem test_listing_decode :
    issueAll (decodeCommands ⟨[(0x61, 3), (0x62, 1)], 4⟩ [0x07]) =
      [.cmd .clear, .sync, .wr .arg0 3, .wr .arg1 0, .cmd (.loadSym 0x61), .sync, .wr .arg0 1, .wr .arg1 0,
        .cmd (.loadSym 0x62), .sync, .cmd .build, .sync, .wr .arg0 4, .wr .arg1 0, .cmd .decStart, .sync,
        .cmd (.decByte 0x07), .sync, .cmd .decEnd, .sync] := by
  decide

theorem witness_ParsingAFile : (headerOf [0x61, 0x62]).entries.length ≤ 256 := by decide

theorem witness_HeaderFrequencies : ([0x61, 0x61] : List Byte).length < 2 ^ 64 := by decide

/-- A state with an item to push. -/
def pushing (out : List Byte) (items : List Run) : State :=
  { latch (after one) 0x20 3 with pending := some ⟨after one, items⟩, out := out }

theorem witness_Push : ∃ s rest p b l, EngineMoves s rest ∧ s.rst = false ∧ s.pending = some p ∧ itemsOf p.items = b :: l ∧
    s.out.length < s.params.outDepth :=
  ⟨pushing [1, 2, 3] [⟨0x61, 3⟩], [], ⟨after one, [⟨0x61, 3⟩]⟩, 0x61, [0x61, 0x61], .inl ⟨rfl, rfl⟩, rfl, rfl, rfl, by decide⟩

theorem witness_Push_holds : ∃ s rest p b l, EngineMoves s rest ∧ s.rst = false ∧ s.pending = some p ∧
    itemsOf p.items = b :: l ∧ s.params.outDepth ≤ s.out.length :=
  ⟨pushing [1, 2, 3, 4] [⟨0x61, 3⟩], [], ⟨after one, [⟨0x61, 3⟩]⟩, 0x61, [0x61, 0x61], .inl ⟨rfl, rfl⟩, rfl, rfl, rfl, by decide⟩

theorem witness_Done : ∃ s rest p c, EngineMoves s rest ∧ s.rst = false ∧ s.pending = some p ∧ itemsOf p.items = [] ∧
    s.cur = some c ∧ c.word ≠ 0x00000001 :=
  ⟨pushing [1, 2, 3] [], [], ⟨after one, []⟩, ⟨0x20, 3⟩, .inl ⟨rfl, rfl⟩, rfl, rfl, rfl, rfl, by decide⟩

theorem witness_Done_clear : ∃ s rest p c, EngineMoves s rest ∧ s.rst = false ∧ s.pending = some p ∧ itemsOf p.items = [] ∧
    s.cur = some c ∧ c.word = 0x00000001 :=
  ⟨{ latch (after one) 0x1 0 with pending := some ⟨Engine.reset, []⟩, out := [1], overrun := true }, [], ⟨Engine.reset, []⟩,
    ⟨0x1, 0⟩, .inl ⟨rfl, rfl⟩, rfl, rfl, rfl, rfl, rfl⟩

theorem witness_CommandCompletes : ∃ s c i e' items, s.agenda = [] ∧ ExecReady s c ∧ decode c.word = .ok i ∧ i ≠ .clear ∧
    execCommand s.engine i c.operand = .ok e' items ∧ s.out.length + (itemsOf items).length = s.params.outDepth ∧
    itemsOf items ≠ [] :=
  ⟨{ latch { after two with mode := .enc, acc := 7, accCnt := 4 } 0x12 0 with out := [1, 2, 3] }, ⟨0x12, 0⟩, .encFlush, _, _,
    rfl, ⟨rfl, rfl, rfl⟩, rfl, by decide, rfl, by decide⟩

theorem witness_EngineStateChanges : ∃ s t : State, step s = .next t ∧ t.engine ≠ s.engine :=
  ⟨{ pushing [] [] with pending := some ⟨Engine.reset, []⟩ }, _, rfl, fun h => absurd (congrArg Engine.nsym h) (by decide)⟩

theorem witness_EngineStateChanges_error : ∃ s t : State, step s = .next t ∧ t.engine.mode ≠ s.engine.mode ∧ t.intErr = true :=
  ⟨latch Engine.reset 0x5 0, _, rfl, by decide, rfl⟩

theorem witness_EngineStateChanges_reset : ∃ s t : State, step s = .next t ∧ IsReset s t ∧ t.engine.mode ≠ s.engine.mode :=
  ⟨box { Engine.reset with mode := .enc } [.host (.write 0x308 4 1)], _, rfl, .inr ⟨1, [], rfl, rfl, by decide, rfl⟩, by decide⟩

theorem witness_EngineLeaves : ∃ (s t : State) (rest : List Event), EngineMoves s rest ∧ step s = .next t ∧ t.intErr ≠ s.intErr :=
  ⟨latch Engine.reset 0x5 0, _, [], .inl ⟨rfl, rfl⟩, rfl, by decide⟩

theorem witness_OtherAccesses : ∃ (s1 s2 : State) (rest : List Event), s1.rst = false ∧
    s1.agenda = .host (.read (s1.params.huffBase + (0x02#8).toNat) 4) :: rest ∧ s2.rst = false ∧
    s2.agenda = .host (.write (s2.params.huffBase + (0x10#8).toNat) 1 0x01) :: rest :=
  ⟨box Engine.reset [.host (.read 0x302 4)], box Engine.reset [.host (.write 0x310 1 1)], [], rfl, rfl, rfl, rfl⟩

theorem witness_Read_edges : ∃ (s1 s2 s3 : State) (rest : List Event), s1.rst = false ∧ s2.rst = false ∧ s3.rst = false ∧
    s1.agenda = .host (.read (s1.params.huffBase + (0x00#8).toNat) 4) :: rest ∧
    s2.agenda = .host (.read (s2.params.huffBase + (0x64#8).toNat) 4) :: rest ∧
    s3.agenda = .host (.read (s3.params.huffBase + (0x68#8).toNat) 4) :: rest :=
  ⟨box Engine.reset [.host (.read 0x300 4)], box Engine.reset [.host (.read 0x364 4)], box Engine.reset [.host (.read 0x368 4)], [],
    rfl, rfl, rfl, rfl, rfl, rfl⟩

theorem witness_Read : ∃ (s : State) (rest : List Event), s.rst = false ∧ (0xFC#8).toNat % 4 = 0 ∧
    s.agenda = .host (.read (s.params.huffBase + (0xFC#8).toNat) 4) :: rest ∧ (0xFC#8) ≠ 0x1C :=
  ⟨box Engine.reset [.host (.read 0x3FC 4)], [], rfl, rfl, rfl, by decide⟩

theorem witness_Read_outData : ∃ (s1 s2 : State) (rest : List Event) (b : Byte) (l : List Byte), s1.rst = false ∧
    s1.agenda = .host (.read (s1.params.huffBase + (0x1C#8).toNat) 4) :: rest ∧ s1.out = [] ∧ s2.rst = false ∧
    s2.agenda = .host (.read (s2.params.huffBase + (0x1C#8).toNat) 4) :: rest ∧ s2.out = b :: l :=
  ⟨box Engine.reset [.host (.read 0x31C 4)], { box Engine.reset [.host (.read 0x31C 4)] with out := [5] }, [], 5, [],
    rfl, rfl, rfl, rfl, rfl, rfl⟩

theorem witness_CmdWrite : ∃ (s1 s2 s3 s4 : State) (rest : List Event) (w : Word),
    (∀ s ∈ [s1, s2, s3], s.rst = false ∧ s.agenda = .host (.write (s.params.huffBase + 0x10) 4 w) :: rest) ∧
    s1.busy = true ∧ s2.busy = false ∧ s2.engine.mode = .error ∧ w ≠ 0x00000001 ∧
    s3.busy = false ∧ s3.engine.mode ≠ .error ∧
    s4.agenda = .host (.write (s4.params.huffBase + 0x10) 4 1) :: rest ∧ s4.busy = false ∧ s4.engine.mode = .error :=
  ⟨{ latch Engine.reset 0 0 with agenda := [.host (.write 0x310 4 3)] },
    box { Engine.reset with mode := .error } [.host (.write 0x310 4 3)], box Engine.reset [.host (.write 0x310 4 3)],
    box { Engine.reset with mode := .error } [.host (.write 0x310 4 1)], [], 3,
    by intro s hs; simp only [List.mem_cons, List.not_mem_nil, or_false] at hs; rcases hs with rfl | rfl | rfl <;> exact ⟨rfl, rfl⟩,
    rfl, rfl, rfl, by decide, rfl, by decide, rfl, rfl, rfl⟩

theorem witness_IntPend : ∃ (s : State) (rest : List Event), s.rst = false ∧
    s.agenda = .host (.write (s.params.huffBase + 0x34) 4 1) :: rest ∧ s.intDone = true ∧ s.intErr = true :=
  ⟨{ box Engine.reset [.host (.write 0x334 4 1)] with intDone := true, intErr := true }, [], rfl, rfl, rfl, rfl⟩

theorem witness_ArgAndIntEn : ∃ (s1 s2 s3 : State) (rest : List Event) (v : Word), s1.rst = false ∧ s2.rst = false ∧
    s3.rst = false ∧ s1.agenda = .host (.write (s1.params.huffBase + 0x14) 4 v) :: rest ∧
    s2.agenda = .host (.write (s2.params.huffBase + 0x18) 4 v) :: rest ∧
    s3.agenda = .host (.write (s3.params.huffBase + 0x38) 4 v) :: rest :=
  ⟨box Engine.reset [.host (.write 0x314 4 7)], box Engine.reset [.host (.write 0x318 4 7)],
    box Engine.reset [.host (.write 0x338 4 7)], [], 7, rfl, rfl, rfl, rfl, rfl, rfl⟩

theorem witness_ReadOnlyWrites : ∃ (s : State) (rest : List Event) (v : Word), s.rst = false ∧
    s.agenda = .host (.write (s.params.huffBase + (0xFC#8).toNat) 4 v) :: rest ∧
    0xFC#8 ∉ [0x08#8, 0x10#8, 0x14#8, 0x18#8, 0x34#8, 0x38#8] :=
  ⟨box Engine.reset [.host (.write 0x3FC 4 5)], [], 5, rfl, rfl, by decide⟩

theorem witness_ReservedBits : (1#32).getLsbD 0 = (3#32).getLsbD 0 ∧ (1#32).extractLsb' 0 2 = (5#32).extractLsb' 0 2 ∧
    (1#32).extractLsb' 0 3 = (9#32).extractLsb' 0 3 := by decide

theorem witness_SoftReset : ∃ (s1 s2 : State) (rest : List Event), s1.rst = false ∧ s2.rst = false ∧
    s1.agenda = .host (.write (s1.params.huffBase + 0x08) 4 1) :: rest ∧
    s2.agenda = .host (.write (s2.params.huffBase + 0x08) 4 2) :: rest ∧ s1.busy = true :=
  ⟨{ latch (after two) 0x10 0 with agenda := [.host (.write 0x308 4 1)] }, box (after two) [.host (.write 0x308 4 2)], [],
    rfl, rfl, rfl, rfl, rfl⟩

theorem witness_Rst : ∃ (s1 s2 s3 s4 : State) (rest : List Event) (a : Access), s1.agenda = .rst true :: rest ∧
    s2.agenda = .rst false :: rest ∧ s3.rst = true ∧ s3.agenda = .host a :: rest ∧ s4.rst = true ∧ EngineMoves s4 rest :=
  ⟨box (after two) [.rst true], { box Engine.reset [.rst false] with rst := true },
    { box Engine.reset [.host (.read 0x300 4)] with rst := true }, { box Engine.reset [] with rst := true }, [],
    .read 0x300 4, rfl, rfl, rfl, rfl, rfl, .inl ⟨rfl, rfl⟩⟩

/-- A block that has taken BAD_STATE and runs CLEAR. -/
def recovering : State :=
  { latch { Engine.reset with mode := .error, errCode := .badState, errCmd := 0x6111 } 0x1 0 with
    pending := some ⟨Engine.reset, []⟩ }

theorem recovering_inv : recovering.Inv where
  engine := errorEntry_inv inv_reset .badState 0x6111 (by decide)
  latch := rfl
  pending p hp := by
    cases hp
    exact ⟨⟨0x1, 0⟩, .clear, [], rfl, rfl, rfl, List.suffix_refl _⟩
  bounded := Nat.zero_le _
  failed _ c hc := by cases hc; rfl
  held hr := by cases hr

theorem witness_ErrorModeIsSticky : ∃ s t : State, s.Inv ∧ s.engine.mode = .error ∧ step s = .next t ∧ t.engine ≠ s.engine :=
  ⟨recovering, _, recovering_inv, rfl, rfl, by decide⟩

theorem witness_ErrorModeIsSticky_reset : ∃ s t : State, s.Inv ∧ s.engine.mode = .error ∧ step s = .next t ∧ IsReset s t :=
  ⟨box { Engine.reset with errCode := .badState, errCmd := 0x6111, mode := .error } [.rst true], _,
    box_inv _ _ (errorEntry_inv inv_reset .badState 0x6111 (by decide)), rfl, rfl, .inl ⟨[], rfl, rfl⟩⟩

theorem witness_OverrunIsSticky : ∃ s t : State, s.overrun = true ∧ step s = .next t ∧ t.overrun = false :=
  ⟨{ recovering with overrun := true }, _, rfl, rfl, rfl⟩

theorem witness_OverrunIsSticky_reset : ∃ s t : State, s.overrun = true ∧ step s = .next t ∧ t.overrun = false :=
  ⟨{ box Engine.reset [.rst true] with overrun := true }, _, rfl, rfl, rfl⟩

theorem witness_StepKeeps : ∃ s t : State, s.Inv ∧ step s = .next t ∧ s.busy = true ∧ t.engine ≠ s.engine :=
  ⟨recovering, _, recovering_inv, rfl, rfl, by decide⟩

theorem witness_NoFaults : ∃ s : State, s.Inv ∧ InWindow s ∧ s.agenda = [.host (.write 0x3FF 4 0)] :=
  ⟨box (after two) [.host (.write 0x3FF 4 0)], box_inv _ _ (after_inv _),
    by intro a rest h; cases h; rfl, rfl⟩

end Sys2Proof.Tests
end

section
/-! # Control: host accesses and E-DONE (spec/40_control.md)

What a step does where a host access or the engine's move is next, stated once; then the statements about reads, writes and
E-DONE. -/

namespace Sys2Proof.Machine

/-! ## The register map -/

/-- CLEAR's word, written out (R114). -/
theorem encode_clear : encode .clear = 0x00000001 := by decide

/-- OUT_DATA stands at offset 0x1C alone (R33). -/
theorem regAt_outData {off : BitVec 8} (ha : off.toNat % 4 = 0) (h : regAt off = .outData) : off = 0x1C := by
  revert off; decide

/-- The offsets from 0x68 on are reserved (R33). -/
theorem regAt_reserved {off : BitVec 8} (h : 0x68 ≤ off.toNat) : regAt off = .reserved := by
  revert off; decide

/-- The registers that a write can change (R141, R142). -/
def takesWrite (r : Reg) : Bool := r ∈ [Reg.ctrl, .cmd, .arg0, .arg1, .intPend, .intEn]

/-- The writable registers stand at six offsets (R33). -/
theorem regAt_takesWrite {off : BitVec 8} (ha : off.toNat % 4 = 0) (h : takesWrite (regAt off) = true) :
    off ∈ [0x08#8, 0x10#8, 0x14#8, 0x18#8, 0x34#8, 0x38#8] := by
  revert off; decide

/-- No other register takes a write (R142). -/
theorem regWrite_of_not_takesWrite (v : Word) (s : State) {r : Reg} (h : takesWrite r = false) : regWrite v s r = s := by
  cases r with
  | ctrl | cmd | arg0 | arg1 | intPend | intEn => cases h
  | _ => rfl

/-! ## Reads of a register -/

/-- A register's value does not depend on what is scheduled. -/
@[simp] theorem regValue_agenda (s : State) (rest : List Event) (r : Reg) :
    regValue { s with agenda := rest } r = regValue s r := by
  cases r <;> rfl

theorem popOut_of_ne (s : State) {r : Reg} (h : r ≠ .outData) : popOut s r = s := by
  cases r with
  | outData => exact absurd rfl h
  | _ => rfl

/-- A read that acts returns the register at its offset, and at any offset but OUT_DATA's does nothing else (R140). -/
theorem hostRead_of_ne (s : State) {off : BitVec 8} (ha : off.toNat % 4 = 0) (hoff : off ≠ 0x1C) :
    hostRead off 4 s = { s with rdata := regValue s (regAt off) } := by
  rw [hostRead, if_pos ((acts_iff off 4).mpr ⟨rfl, ha⟩), popOut_of_ne s fun h => hoff (regAt_outData ha h)]

/-- A read of OUT_DATA pops OUT (R144). -/
theorem hostRead_outData (s : State) : hostRead 0x1C 4 s = { s with rdata := outDataWord s, out := s.out.tail } := rfl

theorem regValue_intPend (s : State) : regValue s .intPend =
    0#29 ++ BitVec.ofBool (!s.out.isEmpty) ++ BitVec.ofBool s.intErr ++ BitVec.ofBool s.intDone := by
  simp only [regValue, intPend, outNonempty]
  cases s.intErr <;> cases s.intDone <;> cases s.out.isEmpty <;> decide

theorem regValue_intEn (s : State) : regValue s .intEn = 0#29 ++ s.intEn := by
  simp only [regValue]
  generalize s.intEn = v
  revert v; decide

/-- OUT_DATA as a word: the valid bit is bit 31, the item stands in bits 7:0 (R37). -/
theorem outDataWord_cons {s : State} {b : Byte} {l : List Byte} (h : s.out = b :: l) :
    outDataWord s = 0x80000000#32 ||| b.setWidth 32 := by
  simp only [outDataWord, h]
  clear h
  revert b; decide

/-- A read of an empty OUT returns 0 and pops nothing (R144). -/
theorem hostRead_outData_nil {s : State} (h : s.out = []) : hostRead 0x1C 4 s = { s with rdata := 0 } := by
  simp only [hostRead_outData, outDataWord, h, List.tail_nil]

/-- A read of OUT_DATA returns the head of OUT and removes it (R144). -/
theorem hostRead_outData_cons {s : State} {b : Byte} {l : List Byte} (h : s.out = b :: l) :
    hostRead 0x1C 4 s = { s with rdata := 0x80000000#32 ||| b.setWidth 32, out := l } := by
  rw [hostRead_outData, outDataWord_cons h, h, List.tail_cons]

/-! ## Steps -/

/-- Where it is the engine's move, a step is that move (R91). -/
theorem step_of_engineMoves {s : State} {rest : List Event} (h : EngineMoves s rest) :
    step s = engineStep { s with agenda := rest } := by
  obtain ⟨ha, rfl⟩ | ha := h
  · simp only [step, ha]
    rw [← ha]
  · simp only [step, ha]

/-- The engine's move with no item left to push is E-DONE (R150). -/
theorem engineStep_done {s : State} {p : Pending} (hr : s.rst = false) (hp : s.pending = some p)
    (hi : itemsOf p.items = []) : engineStep s = .next (engineDone p s) := by
  simp only [engineStep, hr, hp, (popItem_of_items p.items).1 hi, Bool.false_eq_true, if_false]

/-- E-DONE knows CLEAR by the latched word (R153). -/
theorem runsClear_iff {s : State} {c : Command} (hc : s.cur = some c) : runsClear s = true ↔ c.word = 0x00000001 := by
  simp only [runsClear, hc, encode_clear, beq_iff_eq]

/-- A read in the window (R140). -/
theorem step_read {s : State} {rest : List Event} {off : BitVec 8} {size : Nat} (hr : s.rst = false)
    (h : s.agenda = .host (.read (s.params.huffBase + off.toNat) size) :: rest) :
    step s = .next (hostRead off size { s with agenda := rest }) := by
  simp only [step, h, hostAccess, hr, windowOffset_base, Bool.false_eq_true, if_false]

/-- A write in the window (R141). -/
theorem step_write {s : State} {rest : List Event} {off : BitVec 8} {size : Nat} {v : Word} (hr : s.rst = false)
    (h : s.agenda = .host (.write (s.params.huffBase + off.toNat) size v) :: rest) :
    step s = .next (hostWrite off size v { s with agenda := rest }) := by
  simp only [step, h, hostAccess, hr, windowOffset_base, Bool.false_eq_true, if_false]

/-- A write that acts writes the register at its offset (R141). -/
theorem step_write_aligned {s : State} {rest : List Event} {off : BitVec 8} {v : Word} (hr : s.rst = false)
    (ha : off.toNat % 4 = 0) (h : s.agenda = .host (.write (s.params.huffBase + off.toNat) 4 v) :: rest) :
    step s = .next (regWrite v { s with agenda := rest } (regAt off)) := by
  rw [step_write hr h, hostWrite, if_pos ((acts_iff off 4).mpr ⟨rfl, ha⟩)]

/-- A write at any offset but the six of the writable registers does nothing (R86, R142). -/
theorem hostWrite_readOnly {off : BitVec 8} (v : Word) (s : State)
    (h : off ∉ [0x08#8, 0x10#8, 0x14#8, 0x18#8, 0x34#8, 0x38#8]) : hostWrite off 4 v s = s := by
  unfold hostWrite
  split
  next hacts =>
    have ha := ((acts_iff off 4).mp hacts).2
    exact regWrite_of_not_takesWrite v s (Bool.eq_false_iff.mpr fun hw => h (regAt_takesWrite ha hw))
  next => rfl

/-- Words with the same low bits have the same bit there. -/
theorem getLsbD_eq_of_extractLsb'_eq {v v' : Word} {n i : Nat} (h : v.extractLsb' 0 n = v'.extractLsb' 0 n) (hi : i < n) :
    v.getLsbD i = v'.getLsbD i := by
  simpa [hi] using congrArg (BitVec.getLsbD · i) h

end Sys2Proof.Machine

namespace Sys2Proof.Proofs

open Sys2Proof.Machine

/-- Settles O46, by the offsets of the register map. -/
theorem readReturnsTheRegister : Obligations.ReadReturnsTheRegister := by
  intro s rest off hr ha hag
  have hstep := step_read hr hag
  refine ⟨fun hoff => ?_, fun hoff hout => ?_, fun b l hoff hout => ?_⟩
  · rw [hstep, hostRead_of_ne _ ha hoff, regValue_agenda]
    congr 2
    split
    -- INT_PEND and INT_EN
    case h_13 h => rw [← regValue_intPend, (BitVec.toNat_eq_nat.mp h).2]; rfl
    case h_14 h => rw [← regValue_intEn, (BitVec.toNat_eq_nat.mp h).2]; rfl
    -- the reserved offsets
    case h_26 =>
      have hne : off.toNat ≠ 0x1C := fun h => hoff (BitVec.eq_of_toNat_eq h)
      have hhigh : 0x68 ≤ off.toNat := by
        simp only [imp_false] at *
        omega
      rw [regAt_reserved hhigh]
      rfl
    all_goals next h => rw [(BitVec.toNat_eq_nat.mp h).2]; rfl
  · subst hoff
    exact hstep.trans (congrArg _ (hostRead_outData_nil hout))
  · subst hoff
    exact hstep.trans (congrArg _ (hostRead_outData_cons hout))

/-- Settles O51, by the offsets of the writable registers and, for the reserved bits, by what each of the three writes reads. -/
theorem readOnlyWritesAreIgnored : Obligations.ReadOnlyWritesAreIgnored := by
  refine ⟨fun s rest off v hr h hoff => ?_, fun s v v' => ⟨fun h => ?_, fun h => ?_, fun h => ?_⟩⟩
  · rw [step_write hr h, hostWrite_readOnly v _ hoff]
  · simp only [regWrite, writeCtrl, h]
  · simp only [regWrite, writeIntPend, getLsbD_eq_of_extractLsb'_eq h (i := 0) (by decide),
      getLsbD_eq_of_extractLsb'_eq h (i := 1) (by decide)]
  · simp only [regWrite, h]

/-- Settles O40: with no item left the engine's move is E-DONE. -/
theorem doneCommitsTheWholeEngineState : Obligations.DoneCommitsTheWholeEngineState := by
  intro s rest p c hm hr hp hi hc
  have hclear : runsClear { s with agenda := rest } = true ↔ c.word = 0x00000001 := runsClear_iff hc
  calc step s = .next (engineDone p { s with agenda := rest }) := (step_of_engineMoves hm).trans (engineStep_done hr hp hi)
    _ = _ := by simp only [engineDone, hclear]

/-- Settles O48, one lemma about a CMD write for each of its three branches. -/
theorem cmdWriteIssuesDropsOrDiscards : Obligations.CmdWriteIssuesDropsOrDiscards := by
  intro s rest w hr h
  have hstep : step s = .next (writeCmd w { s with agenda := rest }) := step_write_aligned (off := 0x10) hr rfl h
  rw [hstep, ← encode_clear]
  refine ⟨fun hb => ?_, fun hb hm hw => ?_, fun hb hm => ?_⟩
  · exact congrArg _ (writeCmd_busy_dropped w _ hb)
  · exact congrArg _ (writeCmd_discarded w _ hb hm hw)
  · exact congrArg _ (writeCmd_latched w _ hb hm)

/-- Settles O49, by the two bits that the write reads. -/
theorem intPendWriteOneToClear : Obligations.IntPendWriteOneToClear := by
  intro s rest v hr h
  have hstep : step s = .next (writeIntPend v { s with agenda := rest }) := step_write_aligned (off := 0x34) hr rfl h
  rw [hstep, writeIntPend]
  cases v.getLsbD 0 <;> cases v.getLsbD 1 <;> simp

/-- Settles O50: each of the three writes stores its register. -/
theorem argAndIntEnWrites : Obligations.ArgAndIntEnWrites := by
  intro s rest v hr
  refine ⟨fun h => step_write_aligned (off := 0x14) hr rfl h, fun h => step_write_aligned (off := 0x18) hr rfl h,
    fun h => ⟨_, step_write_aligned (off := 0x38) hr rfl h, rfl, ?_⟩⟩
  change irq { s with agenda := rest, intEn := v.extractLsb' 0 3 } = _
  simp [irq, outNonempty]

end Sys2Proof.Proofs
end

section
/-! The merge of the tree building family (R175). -/

namespace Sys2Proof.Proofs

open Sys2Proof.Machine

/-- Settles O15, by the law `merge_ok` about one merge with room in the arena and a sum that fits 72 bits. -/
theorem mergeMakesTheParent : Obligations.MergeMakesTheParent := by
  intro nodes a b rest hroom hsum
  obtain ⟨nd, hkind, hleft, hright, hdata, hfreq, hmerge⟩ := merge_ok nodes a b rest hroom hsum
  exact ⟨nd, hkind, hfreq, hdata, hleft, hright, hmerge⟩

end Sys2Proof.Proofs
end

section
/-! PackBit of the packer family (R200). -/

namespace Sys2Proof.Proofs

open Sys2Proof.Machine

/-- Settles O24: the byte is the accumulator with the bit put at ACC_CNT, and PackBit asks only whether that byte is full. -/
theorem packBitAppendsOneBit : Obligations.PackBitAppendsOneBit := by
  intro e b
  have hplace : e.accCnt.toNat < 8 := e.accCnt.isLt
  refine ⟨putBit e.acc e.accCnt.toNat b, fun k => getLsbD_putBit _ _ _ _ hplace, fun hfull => ?_, fun hroom => ?_⟩
  · exact if_pos hfull
  · exact if_neg hroom

end Sys2Proof.Proofs
end

section
/-! WalkBit of the tree-walk decoder family (R221). -/

namespace Sys2Proof.Proofs

open Sys2Proof.Machine

/-- Settles O30: the node reached is the bit's child, and the law `walkBit_cases` says what WalkBit answers at each of the
two kinds of child. -/
theorem walkBitDescendsAndEmits : Obligations.WalkBitDescendsAndEmits := by
  intro e b p hpos hinternal
  have hleft : b = false → childOf (nodeAt e.node p) b = (nodeAt e.node p).left := by rintro rfl; rfl
  have hright : b = true → childOf (nodeAt e.node p) b = (nodeAt e.node p).right := by rintro rfl; rfl
  refine ⟨childOf (nodeAt e.node p) b, hleft, hright, ?_⟩
  rcases walkBit_cases b hpos hinternal with ⟨hleaf, hemits⟩ | ⟨hother, hmoves⟩
  · exact ⟨fun _ => hemits, fun hne => absurd hleaf hne⟩
  · exact ⟨fun hl => absurd hl hother, fun _ => hmoves⟩

end Sys2Proof.Proofs
end

section
/-! The header of a file (R251, R254): its entries count each symbol of the sequence once. -/

namespace Sys2Proof.Machine

/-- A number that fits a word is the word's value. -/
theorem toNat_ofNat_of_lt {w n : Nat} (h : n < 2 ^ w) : (BitVec.ofNat w n).toNat = n :=
  (BitVec.toNat_ofNat n w).trans (Nat.mod_eq_of_lt h)

theorem mem_allSymbols (s : Byte) : s ∈ allSymbols :=
  List.mem_map.mpr ⟨s.toNat, List.mem_range.mpr s.isLt, BitVec.ofNat_toNat 8 s⟩

theorem nodup_allSymbols : allSymbols.Nodup := by
  refine List.nodup_range.map_on fun i hi j hj h => ?_
  rw [← toNat_ofNat_of_lt (w := 8) (List.mem_range.mp hi), h, toNat_ofNat_of_lt (List.mem_range.mp hj)]

/-- The symbols that the header lists are those of the sequence, each once. -/
theorem presentSymbols_perm_dedup (bytes : List Byte) : (allSymbols.filter fun s => decide (s ∈ bytes)).Perm bytes.dedup :=
  (List.perm_ext_iff_of_nodup (nodup_allSymbols.filter _) bytes.nodup_dedup).mpr fun s => by simp [mem_allSymbols]

/-- A count fits the 64-bit field of its entry where the length of the sequence does. -/
theorem map_toNat_frequencies {bytes : List Byte} (hlen : bytes.length < 2 ^ 64) :
    ((frequencies bytes).map fun p => p.2.toNat) =
      (allSymbols.filter fun s => decide (s ∈ bytes)).map fun s => bytes.count s := by
  rw [frequencies, List.map_map]
  exact List.map_congr_left fun s _ => toNat_ofNat_of_lt (List.count_le_length.trans_lt hlen)

end Sys2Proof.Machine

namespace Sys2Proof.Proofs

open Sys2Proof.Machine

/-- Settles O38: the entries count every distinct symbol of the sequence once, and no 64-bit field wraps below 2^64. -/
theorem headerFrequenciesSumToTheTotal : Obligations.HeaderFrequenciesSumToTheTotal := by
  intro bytes hlen
  refine ⟨?_, toNat_ofNat_of_lt hlen⟩
  calc ((frequencies bytes).map fun p => p.2.toNat).sum
    _ = ((allSymbols.filter fun s => decide (s ∈ bytes)).map fun s => bytes.count s).sum := by rw [map_toNat_frequencies hlen]
    _ = (bytes.dedup.map fun s => bytes.count s).sum := ((presentSymbols_perm_dedup bytes).map _).sum_eq
    _ = bytes.length := bytes.sum_map_count_dedup_eq_length

end Sys2Proof.Proofs
end

section
/-! Error entry by a command's own rule (spec/60_exceptions.md rule R272). -/

namespace Sys2Proof.Machine

/-- The executing command is the latched one (R148). -/
theorem latched_of_cur {s : State} {c : Command} (i : Instr) (hc : s.cur = some c) : latched i s = c := by
  rw [latched, hc, Option.getD_some]

/-- With a command latched, exec settles what Exec finds for its operand (R148, R151). -/
theorem exec_of_cur {s : State} {c : Command} (i : Instr) (hc : s.cur = some c) :
    exec i s = settle c (execCommand s.engine i c.operand) s := by
  rw [exec_eq, latched_of_cur i hc]

end Sys2Proof.Machine

namespace Sys2Proof.Proofs

open Sys2Proof.Machine

/-- Settles O7: exec settles what Exec finds, and settling an error code is error entry with the latched word. -/
theorem errorEntryIsTheWholeEffect : Obligations.ErrorEntryIsTheWholeEffect := by
  intro s c i code ⟨_, _, hc⟩ _ herr
  calc exec i s = settle c (execCommand s.engine i c.operand) s := exec_of_cur i hc
    _ = settle c (.err code) s := by rw [herr]
    _ = .next (errorEntry code c.word s) := rfl

end Sys2Proof.Proofs
end

section
/-! # Command words (spec/30_encoding.md)

Decoding inverts encoding, and a legal word is an instruction's word; so the legal words are the instructions, listed. -/

namespace Sys2Proof

open Machine

/-- Every instruction's word is legal and stands for it (R114, R115). -/
theorem legal_statement (i : Instr) : Laws.Legal.Statement i := by
  cases i with
  | nop => exact Laws.Legal.nop
  | clear => exact Laws.Legal.clear
  | loadSym s => exact Laws.Legal.loadSym s
  | build => exact Laws.Legal.build
  | queryCode s => exact Laws.Legal.queryCode s
  | encStart => exact Laws.Legal.encStart
  | encSym s => exact Laws.Legal.encSym s
  | encFlush => exact Laws.Legal.encFlush
  | decStart => exact Laws.Legal.decStart
  | decByte b => exact Laws.Legal.decByte b
  | decEnd => exact Laws.Legal.decEnd

theorem decode_encode (i : Instr) : decode (encode i) = .ok i := by
  obtain ⟨_, _, hdecode⟩ := legal_statement i
  exact hdecode

theorem encode_injective : Function.Injective encode := fun i j h => by
  have hij := decode_encode i
  rw [h, decode_encode] at hij
  exact (Except.ok.inj hij).symm

/-- A command without IMM8 is legal with IMM8 = 0 alone (R115). -/
theorem noImm_ok {v : Byte} {i j : Instr} (h : noImm v i = .ok j) : v = 0 ∧ j = i := by
  unfold noImm at h
  split at h
  · exact ⟨‹_›, (Except.ok.inj h).symm⟩
  · cases h

/-- An opcode and an IMM8 that decode are the instruction's own fields (R114). -/
theorem fieldsOf_of_decodeOp {op v : Byte} {i : Instr} (h : decodeOp op v = .ok i) : fieldsOf i = ⟨op, v, 0⟩ := by
  unfold decodeOp at h
  split at h
  case h_12 => cases h
  case h_3 hop | h_5 hop | h_7 hop | h_10 hop =>
    cases h
    rw [(BitVec.toNat_eq_nat.mp hop).2]; rfl
  all_goals
    next hop =>
    obtain ⟨rfl, rfl⟩ := noImm_ok h
    rw [(BitVec.toNat_eq_nat.mp hop).2]; rfl

/-- A legal word is its instruction's word (R114, R115). -/
theorem eq_encode_of_decode {w : Word} {i : Instr} (h : decode w = .ok i) : w = encode i := by
  unfold decode at h
  split at h
  · cases h
  next hrsv =>
    have hrsv0 : (split w).rsv = 0 := not_not.mp hrsv
    rw [encode, fieldsOf_of_decodeOp h, ← hrsv0]
    exact (join_split w).symm

/-- `match | (v << 8)`: the fields of a word with RSV = 0 as the opcode map writes them (R114). -/
theorem join_eq_or (op v : Byte) : join ⟨op, v, 0⟩ = op.setWidth 32 ||| (v.setWidth 32 <<< 8) := by
  ext i hi
  rw [← BitVec.getLsbD_eq_getElem, ← BitVec.getLsbD_eq_getElem, getLsbD_join]
  by_cases h8 : i < 8
  · simp [h8, hi]
  · have hop : op.getLsbD i = false := BitVec.getLsbD_of_ge op i (Nat.not_lt.mp h8)
    by_cases h16 : i - 8 < 8
    · simp [h8, h16, hi, hop]
    · have hv : v.getLsbD (i - 8) = false := BitVec.getLsbD_of_ge v (i - 8) (Nat.not_lt.mp h16)
      simp [h8, h16, hop, hv]

theorem noImm_error_iff (v : Byte) (i : Instr) : (∃ x, noImm v i = .error x) ↔ v ≠ 0 := by
  unfold noImm
  split
  next h0 => exact iff_of_false (fun ⟨_, h⟩ => by cases h) (not_not.mpr h0)
  next h0 => exact iff_of_true ⟨_, rfl⟩ h0

/-- Which opcodes and IMM8 are refused (R115). -/
theorem decodeOp_error_iff (op v : Byte) : (∃ x, decodeOp op v = .error x) ↔
    (op ∉ [0x00#8, 0x01#8, 0x02#8, 0x03#8, 0x04#8, 0x10#8, 0x11#8, 0x12#8, 0x20#8, 0x21#8, 0x22#8] ∨
      (op ∈ [0x00#8, 0x01#8, 0x03#8, 0x10#8, 0x12#8, 0x20#8, 0x22#8] ∧ v ≠ 0)) := by
  unfold decodeOp
  split
  case h_12 =>
    refine iff_of_true ⟨_, rfl⟩ (.inl fun hmem => ?_)
    simp only [imp_false] at *
    simp [← BitVec.toNat_inj] at hmem
    omega
  case h_3 hop | h_5 hop | h_7 hop | h_10 hop =>
    rw [(BitVec.toNat_eq_nat.mp hop).2]
    simp
  all_goals
    next hop =>
    rw [(BitVec.toNat_eq_nat.mp hop).2, noImm_error_iff]
    simp

theorem decode_error_iff (w : Word) : (∃ x, decode w = .error x) ↔
    (split w).rsv ≠ 0 ∨ ∃ x, decodeOp (split w).opcode (split w).imm8 = .error x := by
  unfold decode
  split
  next h => exact iff_of_true ⟨_, rfl⟩ (.inl h)
  next h => exact (or_iff_right h).symm

/-- Every instruction, every operand at every value. -/
def allInstrs : List Instr :=
  [.nop, .clear, .build, .encStart, .encFlush, .decStart, .decEnd] ++
    (allSymbols.map .loadSym ++ (allSymbols.map .queryCode ++ (allSymbols.map .encSym ++ allSymbols.map .decByte)))

theorem mem_allInstrs (i : Instr) : i ∈ allInstrs := by
  cases i <;> simp [allInstrs, mem_allSymbols]

theorem nodup_allInstrs : allInstrs.Nodup := by
  have hmap : ∀ f : Byte → Instr, Function.Injective f → (allSymbols.map f).Nodup :=
    fun f hf => nodup_allSymbols.map hf
  have hload := hmap .loadSym fun _ _ => Instr.loadSym.inj
  have hquery := hmap .queryCode fun _ _ => Instr.queryCode.inj
  have hsym := hmap .encSym fun _ _ => Instr.encSym.inj
  have hbyte := hmap .decByte fun _ _ => Instr.decByte.inj
  simp [allInstrs, List.nodup_append, hload, hquery, hsym, hbyte, or_imp, forall_and]

theorem length_allInstrs : allInstrs.length = 4 * 256 + 7 := by simp [allInstrs, allSymbols, nSym]

/-- The legal words are the words of the instructions (R116). -/
theorem mem_legalWords (w : Word) : w ∈ allInstrs.map encode ↔ ∃ i, decode w = .ok i := by
  rw [List.mem_map]
  constructor
  · rintro ⟨i, _, rfl⟩
    exact ⟨i, decode_encode i⟩
  · rintro ⟨i, h⟩
    exact ⟨i, mem_allInstrs i, (eq_encode_of_decode h).symm⟩

end Sys2Proof

namespace Sys2Proof.Proofs

open Sys2Proof.Machine

/-- Settles O2: the bytes of a word, joined again, are the word, and an instruction's word decodes to it. -/
theorem decodeOfEncodeIsTheInstruction : Obligations.DecodeOfEncodeIsTheInstruction := by
  intro i rest _
  simp only [bytesOf, List.cons_append, List.nil_append, decodeBytes, wordOf_bytesOf, decode_encode]

/-- Settles O3: the word is the instruction's own, whose fields are the row's match value and the operand. -/
theorem legalWordIsItsRowsWord : Obligations.LegalWordIsItsRowsWord := by
  intro w i h
  rw [eq_encode_of_decode h]
  cases i with
  | loadSym s => exact join_eq_or 0x02 s
  | queryCode s => exact join_eq_or 0x04 s
  | encSym s => exact join_eq_or 0x11 s
  | decByte b => exact join_eq_or 0x21 b
  | _ => rfl

/-- Settles O4: decoding reads the three fields in order, and the legal words are the instructions', listed. -/
theorem illegalWordsExactly : Obligations.IllegalWordsExactly := by
  refine ⟨fun w => (decode_error_iff w).trans (or_congr Iff.rfl (decodeOp_error_iff _ _)), allInstrs.map encode, ?_, ?_,
    mem_legalWords⟩
  · exact nodup_allInstrs.map encode_injective
  · rw [List.length_map, length_allInstrs]

/-- Settles O1: each of the fourteen words is computed. -/
theorem wordsOfEveryFamilyDecode : Obligations.WordsOfEveryFamilyDecode := by
  unfold Obligations.WordsOfEveryFamilyDecode
  decide

end Sys2Proof.Proofs
end

section
/-! # Every step, inverted: the engine's move, a host access, and what each keeps

`EngineMove` and `HostMove` say once what the engine's move and a host access can leave behind; the invariant and the statements
about whole steps are case analyses over them (spec/10_state.md rule R53, spec/40_control.md rules R140 to R150). -/

namespace Sys2Proof.Machine

/-! ## The engine's move -/

/-- E-EXEC of the command c on the engine state e takes this error: its word is illegal, or Exec finds the error (R148). -/
def TakesError (e : Engine) (c : Command) (code : ErrCode) : Prop :=
  (code = .illegalCmd ∧ ∃ x, decode c.word = .error x) ∨
    ∃ i, decode c.word = .ok i ∧ execCommand e i c.operand = .err code

/-- What the engine's move from s can leave (R148 to R150): nothing enabled or OUT full, E-PUSH, E-DONE, and the two outcomes
of E-EXEC. -/
inductive EngineMove (s : State) : State → Prop where
  | wait : EngineMove s s
  | push (p : Pending) (b : Byte) (rest : List Run) (hrst : s.rst = false) (hpend : s.pending = some p)
      (hitems : itemsOf p.items = b :: itemsOf rest) (hroom : s.out.length < s.params.outDepth) :
      EngineMove s { s with out := s.out ++ [b], pending := some { p with items := rest } }
  | done (p : Pending) (hrst : s.rst = false) (hpend : s.pending = some p) (hitems : itemsOf p.items = []) :
      EngineMove s (engineDone p s)
  | compute (c : Command) (i : Instr) (e : Engine) (items : List Run) (hrst : s.rst = false) (hpend : s.pending = none)
      (hcur : s.cur = some c) (hdec : decode c.word = .ok i) (hexec : execCommand s.engine i c.operand = .ok e items) :
      EngineMove s { s with pending := some ⟨e, items⟩ }
  | fail (c : Command) (code : ErrCode) (hrst : s.rst = false) (hpend : s.pending = none) (hcur : s.cur = some c)
      (hcode : TakesError s.engine c code) :
      EngineMove s (errorEntry code c.word s)

/-- E-EXEC answers PENDING or error entry, or faults where a rule is stuck (R148). -/
theorem engineExec_next {c : Command} {s t : State} (hrst : s.rst = false) (hpend : s.pending = none)
    (hcur : s.cur = some c) (h : engineExec c s = .next t) : EngineMove s t := by
  rw [engineExec_eq c s hcur] at h
  cases hdec : decode c.word with
  | error x =>
    simp only [hdec] at h
    cases h
    exact .fail c .illegalCmd hrst hpend hcur (.inl ⟨rfl, x, hdec⟩)
  | ok i =>
    simp only [hdec] at h
    cases hexec : execCommand s.engine i c.operand with
    | ok e items =>
      rw [hexec] at h
      cases h
      exact .compute c i e items hrst hpend hcur hdec hexec
    | err code =>
      rw [hexec] at h
      cases h
      exact .fail c code hrst hpend hcur (.inr ⟨i, hdec, hexec⟩)
    | stuck f =>
      rw [hexec] at h
      cases h

theorem engineStep_next {s t : State} (h : engineStep s = .next t) : EngineMove s t := by
  obtain ⟨_, hs⟩ | ⟨hr, p, b, rest, hp, hpop, hs⟩ | ⟨hr, p, hp, hpop, hs⟩ | ⟨hr, hp, c, hc, hs⟩ | ⟨_, _, _, hs⟩ :=
    engineStep_cases s <;> rw [hs] at h
  · cases h; exact .wait
  · cases h
    rcases Nat.lt_or_ge s.out.length s.params.outDepth with hroom | hfull
    · rw [enginePush_room p b rest s hroom]
      exact .push p b rest hr hp (popItem_some _ _ _ hpop) hroom
    · rw [enginePush_hold p b rest s hfull]
      exact .wait
  · cases h; exact .done p hr hp (popItem_none _ hpop)
  · exact engineExec_next hr hp hc h
  · cases h; exact .wait

/-! ## A host access -/

/-- t is s but for registers of the host's, a flag, items popped from OUT, and OVERRUN set: what a host access does that
neither latches a command nor resets the block (R140 to R147). -/
structure Quiet (s t : State) : Prop where
  engine : t.engine = s.engine
  busy : t.busy = s.busy
  cur : t.cur = s.cur
  pending : t.pending = s.pending
  params : t.params = s.params
  rst : t.rst = s.rst
  out : t.out.length ≤ s.out.length
  overrun : s.overrun = true → t.overrun = true

theorem Quiet.refl (s : State) : Quiet s s := ⟨rfl, rfl, rfl, rfl, rfl, rfl, Nat.le_refl _, id⟩

/-- What a host access from s can leave (R86, R140 to R147, R300). -/
inductive HostMove (a : Access) (s : State) : State → Prop where
  | held (hrst : s.rst = true) : HostMove a s s
  | quiet (t : State) (hrst : s.rst = false) (h : Quiet s t) : HostMove a s t
  | latch (w : Word) (hrst : s.rst = false) (hbusy : s.busy = false) (hw : s.engine.mode ≠ .error ∨ w = encode .clear) :
      HostMove a s { s with cur := some ⟨w, argOperand s⟩, busy := true }
  | reset (v : Word) (hrst : s.rst = false) (ha : a = .write (s.params.huffBase + 0x08) 4 v) (hv : v.getLsbD 0 = true) :
      HostMove a s (resetBlock s)

theorem hostRead_quiet (off : BitVec 8) (size : Nat) (s : State) : Quiet s (hostRead off size s) := by
  obtain ⟨hframe, hout⟩ := hostRead_frame off size s
  have hlen : (hostRead off size s).out.length ≤ s.out.length := by
    rcases hout with h | h <;> simp [h]
  rw [hframe]
  exact ⟨rfl, rfl, rfl, rfl, rfl, rfl, hlen, id⟩

/-- A CMD write latches, or is dropped or discarded (R143). -/
theorem writeCmd_move (a : Access) (w : Word) {s : State} (hrst : s.rst = false) : HostMove a s (writeCmd w s) := by
  obtain ⟨_, h⟩ | ⟨_, _, _, h⟩ | ⟨hb, hw, h⟩ := writeCmd_cases w s <;> rw [h]
  · exact .quiet _ hrst ⟨rfl, rfl, rfl, rfl, rfl, rfl, Nat.le_refl _, fun _ => rfl⟩
  · exact .quiet _ hrst (.refl s)
  · exact .latch w hrst hb hw

theorem hostWrite_move (off : BitVec 8) (size : Nat) (v : Word) {s : State} (hrst : s.rst = false) :
    HostMove (.write (s.params.huffBase + off.toNat) size v) s (hostWrite off size v s) := by
  unfold hostWrite
  split
  next hacts =>
    obtain ⟨rfl, ha⟩ := (acts_iff off size).mp hacts
    obtain h | ⟨hreg, hv, h⟩ | h | h | h | h | h := regWrite_cases v s (regAt off) <;> rw [h]
    · exact .quiet _ hrst (.refl s)
    · exact .reset v hrst (by rw [regAt_ctrl off ha hreg]) hv
    · exact writeCmd_move _ v hrst
    all_goals exact .quiet _ hrst ⟨rfl, rfl, rfl, rfl, rfl, rfl, Nat.le_refl _, id⟩
  next => exact .quiet _ hrst (.refl s)

theorem hostAccess_next {a : Access} {s t : State} (h : hostAccess a s = .next t) : HostMove a s t := by
  obtain ⟨hr, hs⟩ | ⟨hr, off, size, rfl, hs⟩ | ⟨hr, off, size, v, rfl, hs⟩ | ⟨_, hs⟩ := hostAccess_cases a s <;>
    rw [hs] at h <;> cases h
  · exact .held hr
  · exact .quiet _ hr (hostRead_quiet off size s)
  · exact hostWrite_move off size v hr

/-! ## A step -/

/-- What a step from s can leave (R91): the three kinds of event, each on the state with the event taken off the agenda. -/
inductive StepMove (s t : State) : Prop where
  | engine (rest : List Event) (hev : EngineMoves s rest) (h : EngineMove { s with agenda := rest } t)
  | host (a : Access) (rest : List Event) (hev : s.agenda = .host a :: rest) (h : HostMove a { s with agenda := rest } t)
  | rst (level : Bool) (rest : List Event) (hev : s.agenda = .rst level :: rest)
      (h : t = driveRst level { s with agenda := rest })

theorem step_next {s t : State} (h : step s = .next t) : StepMove s t := by
  obtain ⟨rest, hev, hs⟩ | ⟨a, rest, hev, hs⟩ | ⟨level, rest, hev, hs⟩ := step_cases s <;> rw [hs] at h
  · exact .engine rest hev (engineStep_next h)
  · exact .host a rest hev (hostAccess_next h)
  · cases h; exact .rst level rest hev rfl

/-- A step is the engine's move, or a reset, or leaves the engine state and a set OVERRUN as they are (R53, R91). -/
theorem step_engine_or_reset {s t : State} (h : step s = .next t) :
    (∃ rest, EngineMoves s rest ∧ EngineMove { s with agenda := rest } t) ∨ IsReset s t ∨
      (t.engine = s.engine ∧ (s.overrun = true → t.overrun = true)) := by
  cases step_next h with
  | engine rest hev hmove => exact .inl ⟨rest, hev, hmove⟩
  | host a rest hev hmove =>
    cases hmove with
    | held | latch => exact .inr (.inr ⟨rfl, id⟩)
    | quiet _ _ hq => exact .inr (.inr ⟨hq.engine, hq.overrun⟩)
    | reset v hrst ha hv => exact .inr (.inl (.inr ⟨v, rest, hrst, ha ▸ hev, hv, rfl⟩))
  | rst level rest hev ht =>
    subst ht
    cases level with
    | true => exact .inr (.inl (.inl ⟨rest, hev, rfl⟩))
    | false => exact .inr (.inr ⟨rfl, id⟩)

/-- E-DONE clears a set OVERRUN for CLEAR's word alone (R153). -/
theorem clear_of_overrun_cleared {p : Pending} {s : State} (ho : s.overrun = true) (h : (engineDone p s).overrun = false) :
    ∃ a, s.cur = some ⟨0x00000001, a⟩ := by
  rw [engineDone_overrun, ho] at h
  cases hc : s.cur with
  | none => simp [runsClear, hc] at h
  | some c =>
    have hword : c.word = 0x00000001 := (runsClear_iff hc).mp (by simpa using h)
    exact ⟨c.operand, by rw [← hword]⟩

/-- No step changes OUT_DEPTH or HUFF_BASE (R5). -/
theorem step_params {s t : State} (h : step s = .next t) : t.params = s.params := by
  cases step_next h with
  | engine rest _ hmove => cases hmove <;> rfl
  | host a rest _ hmove =>
    cases hmove with
    | quiet _ _ hq => exact hq.params
    | held | latch | reset => rfl
  | rst level rest _ ht =>
    subst ht
    cases level <;> rfl

/-! ## The invariant -/

/-- The reset of R301 leaves a state of the invariant, whatever was before. -/
theorem inv_resetBlock (s : State) : (resetBlock s).Inv where
  engine := inv_reset
  latch := rfl
  pending p hp := by cases hp
  bounded := Nat.zero_le _
  failed h := by cases h
  held _ := rfl

/-- Where `rst` is released the invariant's clause about it says nothing. -/
theorem held_of_released {s : State} (hrst : s.rst = false) : s.rst = true → s = resetBlock s := fun hr => by
  rw [hrst] at hr
  cases hr

/-- The invariant does not speak of what is scheduled. -/
theorem State.Inv.with_agenda {s : State} (h : s.Inv) (rest : List Event) : ({ s with agenda := rest } : State).Inv where
  engine := h.engine
  latch := h.latch
  pending := h.pending
  bounded := h.bounded
  failed := h.failed
  held hr := congrArg (fun u : State => { u with agenda := rest }) (h.held hr)

/-- E-DONE commits an engine state of the invariant: PENDING is a command's success on one (R151). -/
theorem PendingOk.next_inv {s : State} (h : PendingOk s) (he : s.engine.Inv) {p : Pending} (hp : s.pending = some p) :
    p.next.Inv := by
  obtain ⟨c, i, items, _, _, hx, _⟩ := h p hp
  rcases execCommand_sound he i c.operand with ⟨e', items', hx', hinv, _⟩ | ⟨code, hx', _⟩
  · rw [hx] at hx'
    injection hx' with hnext
    exact hnext ▸ hinv
  · rw [hx] at hx'
    cases hx'

/-- An error that E-EXEC finds is no success code (R270). -/
theorem code_ne_noError {e : Engine} (he : e.Inv) {c : Command} {code : ErrCode}
    (h : TakesError e c code) : code ≠ .noError := by
  rcases h with ⟨rfl, _⟩ | ⟨i, _, hx⟩
  · decide
  · rcases execCommand_sound he i c.operand with ⟨e', items', hx', _⟩ | ⟨code', hx', hne⟩ <;> rw [hx] at hx'
    · cases hx'
    · injection hx' with hcode
      exact hcode ▸ hne

theorem EngineMove.keeps_inv {s t : State} (h : EngineMove s t) (hs : s.Inv) : t.Inv := by
  cases h with
  | wait => exact hs
  | push p b rest hrst hpend hitems hroom =>
    refine { engine := hs.engine, latch := hs.latch, pending := ?_, bounded := ?_, failed := hs.failed
             held := held_of_released hrst }
    · rintro _ ⟨⟩
      obtain ⟨c, i, items, hc, hd, hx, hsuf⟩ := hs.pending p hpend
      exact ⟨c, i, items, hc, hd, hx, (List.suffix_cons b _).trans (hitems ▸ hsuf)⟩
    · show (s.out ++ [b]).length ≤ s.params.outDepth
      rw [List.length_append]
      exact hroom
  | done p hrst hpend hitems =>
    refine { engine := hs.pending.next_inv hs.engine hpend, latch := rfl, pending := ?_, bounded := ?_, failed := ?_
             held := held_of_released hrst }
    · rintro _ ⟨⟩
    · rw [engineDone_out]
      split
      · exact Nat.zero_le _
      · exact hs.bounded
    · rintro _ _ ⟨⟩
  | compute c i e items hrst hpend hcur hdec hexec =>
    refine { engine := hs.engine, latch := hs.latch, pending := ?_, bounded := hs.bounded, failed := hs.failed
             held := held_of_released hrst }
    rintro _ ⟨⟩
    exact ⟨c, i, items, hcur, hdec, hexec, List.suffix_refl _⟩
  | fail c code hrst hpend hcur hcode =>
    refine { engine := errorEntry_inv hs.engine code c.word (code_ne_noError hs.engine hcode), latch := rfl, pending := ?_
             bounded := hs.bounded, failed := ?_, held := held_of_released hrst }
    · intro p hp
      exact absurd (hpend.symm.trans hp) (by simp)
    · rintro _ _ ⟨⟩

theorem Quiet.keeps_inv {s t : State} (h : Quiet s t) (hrst : s.rst = false) (hs : s.Inv) : t.Inv where
  engine := h.engine ▸ hs.engine
  latch := by rw [h.busy, h.cur]; exact hs.latch
  pending := by
    intro p hp
    rw [h.pending] at hp
    rw [h.cur, h.engine]
    exact hs.pending p hp
  bounded := by rw [h.params]; exact h.out.trans hs.bounded
  failed := by rw [h.engine, h.cur]; exact hs.failed
  held := held_of_released (h.rst.trans hrst)

/-- Where BUSY is 0 nothing is pending (R51). -/
theorem State.Inv.not_pending {s : State} (hs : s.Inv) (hb : s.busy = false) : s.pending = none := by
  cases hp : s.pending with
  | none => rfl
  | some p =>
    obtain ⟨c, _, _, hc, _⟩ := hs.pending p hp
    have := hs.latch
    rw [hb, hc] at this
    cases this

theorem HostMove.keeps_inv {a : Access} {s t : State} (h : HostMove a s t) (hs : s.Inv) : t.Inv := by
  cases h with
  | held => exact hs
  | quiet _ hrst hq => exact hq.keeps_inv hrst hs
  | reset => exact inv_resetBlock s
  | latch w hrst hb hw =>
    refine { engine := hs.engine, latch := rfl, pending := ?_, bounded := hs.bounded, failed := ?_
             held := held_of_released hrst }
    · intro p hp
      exact absurd ((hs.not_pending hb).symm.trans hp) (by simp)
    · rintro hm _ ⟨⟩
      exact hw.resolve_left fun hne => hne hm

theorem driveRst_keeps_inv (level : Bool) {s : State} (hs : s.Inv) : (driveRst level s).Inv := by
  cases level with
  | true => exact inv_resetBlock _
  | false =>
    exact { engine := hs.engine, latch := hs.latch, pending := hs.pending, bounded := hs.bounded, failed := hs.failed,
            held := held_of_released rfl }

/-! ## No fault -/

/-- E-EXEC from a state of the invariant is never stuck (R10, R176, R226). -/
theorem engineExec_answers {s : State} (hs : s.Inv) {c : Command} (hcur : s.cur = some c) : ∃ t, engineExec c s = .next t := by
  rw [engineExec_eq c s hcur]
  cases decode c.word with
  | error x => exact ⟨_, rfl⟩
  | ok i =>
    rcases execCommand_sound hs.engine i c.operand with ⟨e', items, hx, _⟩ | ⟨code, hx, _⟩
    · simp only [hx]
      exact ⟨_, rfl⟩
    · simp only [hx]
      exact ⟨_, rfl⟩

theorem engineStep_answers {s : State} (hs : s.Inv) : ∃ t, engineStep s = .next t := by
  obtain ⟨_, h⟩ | ⟨_, p, b, rest, _, _, h⟩ | ⟨_, p, _, _, h⟩ | ⟨_, _, c, hc, h⟩ | ⟨_, _, _, h⟩ := engineStep_cases s
  case inr.inr.inr.inl => rw [h]; exact engineExec_answers hs hc
  all_goals exact ⟨_, h⟩

/-- A host access to an address of the window never faults (R86). -/
theorem hostAccess_answers {s : State} {a : Access} {rest : List Event} (hw : InWindow s) (hev : s.agenda = .host a :: rest) :
    ∃ t, hostAccess a { s with agenda := rest } = .next t := by
  have hin := hw a rest hev
  unfold hostAccess
  split
  · exact ⟨_, rfl⟩
  · cases a <;>
    · obtain ⟨off, ho⟩ := Option.isSome_iff_exists.mp hin
      simp only [ho]
      exact ⟨_, rfl⟩

/-! ## MODE = ERROR -/

/-- In MODE = ERROR the engine's move keeps the engine state, or is the E-DONE of CLEAR (R275, R277). -/
theorem EngineMove.of_error {s t : State} (h : EngineMove s t) (hs : s.Inv) (hm : s.engine.mode = .error) :
    t.engine = s.engine ∨
      ∃ a p, s.rst = false ∧ s.cur = some ⟨0x00000001, a⟩ ∧ s.pending = some p ∧ itemsOf p.items = [] ∧
        p.next = Engine.reset ∧ t = engineDone p s := by
  cases h with
  | wait => exact .inl rfl
  | push => exact .inl rfl
  | compute => exact .inl rfl
  | done p hrst hpend hitems =>
    obtain ⟨c, i, items, hc, hd, hx, _⟩ := hs.pending p hpend
    have hword : c.word = encode .clear := hs.failed hm c hc
    rw [hword, decode_encode] at hd
    cases hd
    injection hx with hnext
    rw [encode_clear] at hword
    exact .inr ⟨c.operand, p, hrst, by rw [hc, ← hword], hpend, hitems, hnext.symm, rfl⟩
  | fail c code hrst hpend hcur hcode =>
    rw [TakesError, hs.failed hm c hcur, decode_encode] at hcode
    rcases hcode with ⟨_, _, ⟨⟩⟩ | ⟨_, ⟨⟩, ⟨⟩⟩

end Sys2Proof.Machine

namespace Sys2Proof.Proofs

open Sys2Proof.Machine

/-- Settles O59, event by event: the engine's move, a host access and a change of `rst` each keep the invariant. -/
theorem stepKeepsTheInvariant : Obligations.StepKeepsTheInvariant := by
  intro s t hs h
  cases step_next h with
  | engine rest _ hmove => exact hmove.keeps_inv (hs.with_agenda rest)
  | host a rest _ hmove => exact hmove.keeps_inv (hs.with_agenda rest)
  | rst level rest _ ht => exact ht ▸ driveRst_keeps_inv level (hs.with_agenda rest)

/-- Settles O60: of the three kinds of event only a host access outside the window could fault, since no rule is stuck. -/
theorem noReachableStateFaults : Obligations.NoReachableStateFaults := by
  intro s hs hw
  obtain ⟨rest, _, h⟩ | ⟨a, rest, hev, h⟩ | ⟨level, rest, _, h⟩ := step_cases s
  · exact h ▸ engineStep_answers (hs.with_agenda rest)
  · exact h ▸ hostAccess_answers hw hev
  · exact ⟨_, h⟩

/-- Settles O58: it is what a reset of the block leaves. -/
theorem resetMeetsTheInvariant : Obligations.ResetMeetsTheInvariant := fun p agenda =>
  inv_resetBlock { State.reset with params := p, agenda := agenda }

/-- Settles O42: outside a reset the engine state is written by error entry and E-DONE alone, which are the engine's moves. -/
theorem engineStateChangesOnlyAtCommit : Obligations.EngineStateChangesOnlyAtCommit := by
  intro s t h
  obtain ⟨rest, hev, hmove⟩ | hreset | ⟨hkeep, _⟩ := step_engine_or_reset h
  · cases hmove with
    | wait | push | compute => exact .inl rfl
    | done p hrst hpend hitems => exact .inr (.inr (.inr ⟨rest, p, hev, hrst, hpend, hitems, rfl, rfl, rfl⟩))
    | fail c code hrst hpend hcur => exact .inr (.inr (.inl ⟨rest, code, c, hev, ⟨hrst, hpend, hcur⟩, rfl⟩))
  · exact .inr (.inl hreset)
  · exact .inl hkeep

/-- Settles O56: in MODE = ERROR the only command latched is CLEAR, which cannot fail and commits the reset engine state. -/
theorem errorModeIsSticky : Obligations.ErrorModeIsSticky := by
  intro s t hs hm h
  obtain ⟨rest, hev, hmove⟩ | hreset | ⟨hkeep, _⟩ := step_engine_or_reset h
  · rcases hmove.of_error (hs.with_agenda rest) hm with hkeep | ⟨a, p, hrst, hcur, hpend, hitems, hnext, ht⟩
    · exact .inl hkeep
    · exact .inr (.inr ⟨a, rest, p, hev, hrst, hcur, hpend, hitems, hnext, ht⟩)
  · exact .inr (.inl hreset)
  · exact .inl hkeep

/-- Settles O57: outside a reset OVERRUN is cleared by E-DONE alone, and there only for CLEAR's word. -/
theorem overrunIsSticky : Obligations.OverrunIsSticky := by
  intro s t ho h ht
  obtain ⟨rest, hev, hmove⟩ | hreset | ⟨_, hkeep⟩ := step_engine_or_reset h
  · cases hmove with
    | wait | push | compute | fail => exact absurd (ho.symm.trans ht) (by decide)
    | done p hrst hpend hitems =>
      obtain ⟨a, hcur⟩ := clear_of_overrun_cleared (p := p) (s := { s with agenda := rest }) ho ht
      exact .inr ⟨a, p.next, rest, p, hev, hrst, hcur, hpend, hitems, rfl, rfl⟩
  · exact .inl hreset
  · exact absurd ((hkeep ho).symm.trans ht) (by decide)

/-- Settles O43: E-DONE sets DONE, error entry sets ERR, and no move does both. -/
theorem oneStepSetsDoneOrErrNotBoth : Obligations.OneStepSetsDoneOrErrNotBoth := by
  intro s t rest hev h
  rw [step_of_engineMoves hev] at h
  cases engineStep_next h with
  | wait | push | compute => exact .inl ⟨rfl, rfl⟩
  | done => exact .inr (.inl ⟨rfl, rfl⟩)
  | fail => exact .inr (.inr ⟨rfl, rfl⟩)

/-- Settles O44, for the parameters event by event, for the host's registers by the engine's moves. -/
theorem engineLeavesHostRegistersAlone : Obligations.EngineLeavesHostRegistersAlone := by
  intro s t h
  refine ⟨step_params h, fun rest hev => ?_⟩
  rw [step_of_engineMoves hev] at h
  cases engineStep_next h with
  | wait | push | compute => exact ⟨rfl, rfl, rfl, id, id⟩
  | done => exact ⟨rfl, rfl, rfl, fun _ => rfl, id⟩
  | fail => exact ⟨rfl, rfl, rfl, id, fun _ => rfl⟩

end Sys2Proof.Proofs
end

section
/-! # E-EXEC: what exec answers where the rule succeeds, where it fails, and outside the command's modes

(spec/40_control.md rules R148, R151). -/

namespace Sys2Proof.Machine

theorem ExecReady.rst {s : State} {c : Command} (h : ExecReady s c) : s.rst = false := h.1

theorem ExecReady.pending {s : State} {c : Command} (h : ExecReady s c) : s.pending = none := h.2.1

theorem ExecReady.cur {s : State} {c : Command} (h : ExecReady s c) : s.cur = some c := h.2.2

/-- In a legal mode Exec is the command's rule (R151). -/
theorem execCommand_of_legal {i : Instr} {e : Engine} (a : Quad) (h : legalIn i e.mode = true) :
    execCommand e i a = ruleOf i e a := if_pos h

/-- Outside its modes a command is BAD_STATE (R151). -/
theorem execCommand_of_illegal {i : Instr} {e : Engine} (a : Quad) (h : legalIn i e.mode = false) :
    execCommand e i a = .err .badState := if_neg (by simp [h])

/-- A command that succeeds leaves PENDING and nothing else (R148). -/
theorem exec_of_ok {i : Instr} {s : State} {e : Engine} {items : List Run} (hl : legalIn i s.engine.mode = true)
    (h : ruleOf i s.engine (latched i s).operand = .ok e items) :
    exec i s = .next { s with pending := some ⟨e, items⟩ } := by
  rw [exec_eq, execCommand_of_legal _ hl, h]
  rfl

/-- The same where the operand is known. -/
theorem exec_of_ok_ready {i : Instr} {s : State} {c : Command} {e : Engine} {items : List Run} (hc : ExecReady s c)
    (hl : legalIn i s.engine.mode = true) (h : ruleOf i s.engine c.operand = .ok e items) :
    exec i s = .next { s with pending := some ⟨e, items⟩ } :=
  exec_of_ok hl (by rw [latched_of_cur i hc.cur]; exact h)

/-- A command whose rule finds an error takes it, with the latched word (R148, R272). -/
theorem exec_of_err {i : Instr} {s : State} {c : Command} {code : ErrCode} (hc : ExecReady s c)
    (hl : legalIn i s.engine.mode = true) (h : ruleOf i s.engine c.operand = .err code) :
    exec i s = .next (errorEntry code c.word s) := by
  rw [exec_of_cur i hc.cur, execCommand_of_legal _ hl, h]
  rfl

/-- The engine's move with a command latched and nothing computed is E-EXEC (R148). -/
theorem step_exec {s : State} {rest : List Event} {c : Command} (hm : EngineMoves s rest) (hc : ExecReady s c) :
    step s = engineExec c { s with agenda := rest } := by
  rw [step_of_engineMoves hm]
  simp only [engineStep, hc.rst, hc.pending, hc.cur, Bool.false_eq_true, if_false]

/-! ## What the rules leave unchanged, and the mode they leave (R151) -/

theorem walkBit_frame {e e' : Engine} {b : Bool} {l : List Byte} (h : walkBit e b = .ok (e', l)) :
    e' = { e with count := e'.count, pos := e'.pos } := by
  unfold walkBit at h
  split at h
  · cases h
  · split at h
    · split at h
      · cases h; rfl
      · cases h; rfl
    · cases h

/-- The walk writes COUNT and POS alone, wherever it starts (R221, R223). -/
theorem walkBits_frame (bs : List Bool) : ∀ {e e' : Engine} {l : List Byte}, walkBits e bs = .ok (e', l) →
    e' = { e with count := e'.count, pos := e'.pos } := by
  induction bs with
  | nil => rintro e _ _ ⟨⟩; rfl
  | cons b bs ih =>
    intro e e' l h
    simp only [walkBits] at h
    split at h
    · cases h; rfl
    · cases hb : walkBit e b with
      | error f => simp only [hb] at h; cases h
      | ok x =>
        simp only [hb] at h
        cases hbs : walkBits x.1 bs with
        | error f => simp only [hbs] at h; cases h
        | ok y =>
          simp only [hbs] at h
          cases h
          rw [ih hbs, walkBit_frame hb]

/-- The mode a command leaves: the last column of the mode-legality table (R151). -/
def modeAfter (i : Instr) (m : Mode) : Mode :=
  match i with
  | .nop | .queryCode _ => m
  | .clear | .loadSym _ => .load
  | .build | .encFlush | .decEnd => .built
  | .encStart | .encSym _ => .enc
  | .decStart | .decByte _ => .dec

/-- A rule's answer succeeds in mode m, or is an error of its own: BAD_STATE is the mode check's (R151). -/
def Leaves (m : Mode) : Result → Prop
  | .ok e _ => e.mode = m
  | .err code => code ≠ .badState
  | .stuck _ => True

theorem ruleLoadSym_leaves {e : Engine} (hm : e.mode = .load) (s : Byte) (f : Quad) : Leaves .load (ruleLoadSym e s f) := by
  unfold ruleLoadSym
  split
  · exact ErrCode.noConfusion
  · split
    · exact hm
    · trivial

theorem ruleBuild_leaves (e : Engine) : Leaves .built (ruleBuild e) := by
  unfold ruleBuild
  split
  · split
    · rfl
    · trivial
  · trivial

theorem ruleEncSym_leaves {e : Engine} (hm : e.mode = .enc) (s : Byte) : Leaves .enc (ruleEncSym e s) := by
  unfold ruleEncSym
  split
  · split
    · exact ErrCode.noConfusion
    · show (packBits e (codeAt e.code s).path).1.mode = .enc
      rw [packBits_frame]
      exact hm
  · exact ErrCode.noConfusion

theorem ruleDecStart_leaves (e : Engine) (t : Quad) : Leaves .dec (ruleDecStart e t) := by
  unfold ruleDecStart
  split
  · exact ErrCode.noConfusion
  · split
    · split
      · rfl
      · trivial
    · rfl

theorem ruleDecByte_leaves {e : Engine} (hm : e.mode = .dec) (v : Byte) : Leaves .dec (ruleDecByte e v) := by
  unfold ruleDecByte
  split
  next e' l hw =>
    show e'.mode = .dec
    rw [walkBits_frame _ hw]
    exact hm
  · trivial

theorem ruleDecEnd_leaves (e : Engine) : Leaves .built (ruleDecEnd e) := by
  unfold ruleDecEnd
  split
  · exact ErrCode.noConfusion
  · rfl

/-- What each rule answers in its command's modes. -/
theorem ruleOf_leaves {i : Instr} {e : Engine} (a : Quad) (hl : legalIn i e.mode = true) :
    Leaves (modeAfter i e.mode) (ruleOf i e a) := by
  cases i with
  | nop | clear | queryCode | encStart | encFlush => rfl
  | loadSym s => exact ruleLoadSym_leaves (by simpa [legalIn] using hl) s a
  | build => exact ruleBuild_leaves e
  | encSym s => exact ruleEncSym_leaves (by simpa [legalIn] using hl) s
  | decStart => exact ruleDecStart_leaves e a
  | decByte v => exact ruleDecByte_leaves (by simpa [legalIn] using hl) v
  | decEnd => exact ruleDecEnd_leaves e

/-- Where nothing was pending, E-EXEC leaves PENDING only by Exec's success (R148). -/
theorem eq_ok_of_settle {c : Command} {r : Result} {s : State} {e : Engine} {items : List Run} (hpend : s.pending = none)
    (h : settle c r s = .next { s with pending := some ⟨e, items⟩ }) : r = .ok e items := by
  cases r with
  | ok e' items' =>
    have hp : some (⟨e', items'⟩ : Pending) = some ⟨e, items⟩ := congrArg State.pending (Host.Outcome.next.inj h)
    injection hp with hp
    injection hp with he hi
    rw [he, hi]
  | err code =>
    have hp : s.pending = some ⟨e, items⟩ := congrArg State.pending (Host.Outcome.next.inj h)
    rw [hpend] at hp
    cases hp
  | stuck f => cases h

/-- Where nothing was pending, E-EXEC of a legal word enters an error only where Exec finds it (R148, R272). -/
theorem eq_err_of_settle {c : Command} {r : Result} {s : State} {code : ErrCode} (hpend : s.pending = none)
    (h : settle c r s = .next (errorEntry code c.word s)) : r = .err code := by
  cases r with
  | ok e items =>
    have hp : some (⟨e, items⟩ : Pending) = s.pending := congrArg State.pending (Host.Outcome.next.inj h)
    rw [hpend] at hp
    cases hp
  | err code' => exact congrArg _ (congrArg (fun u : State => u.engine.errCode) (Host.Outcome.next.inj h))
  | stuck f => cases h

/-- A command that succeeds leaves the mode of the table's last column (R151). -/
theorem execCommand_mode {i : Instr} {e e' : Engine} {a : Quad} {items : List Run}
    (h : execCommand e i a = .ok e' items) : e'.mode = modeAfter i e.mode := by
  cases hl : legalIn i e.mode with
  | false => rw [execCommand_of_illegal _ hl] at h; cases h
  | true =>
    rw [execCommand_of_legal _ hl] at h
    have hleaves := ruleOf_leaves a hl
    rw [h] at hleaves
    exact hleaves

/-- Exec is BAD_STATE exactly outside the command's modes (R151). -/
theorem execCommand_badState_iff (i : Instr) (e : Engine) (a : Quad) :
    execCommand e i a = .err .badState ↔ legalIn i e.mode = false := by
  refine ⟨fun h => Bool.eq_false_iff.mpr fun hl => ?_, execCommand_of_illegal a⟩
  rw [execCommand_of_legal _ hl] at h
  have hleaves := ruleOf_leaves a hl
  rw [h] at hleaves
  exact hleaves rfl

theorem exec_badState_iff {s : State} {c : Command} (i : Instr) (hc : ExecReady s c) :
    exec i s = .next (errorEntry .badState c.word s) ↔ legalIn i s.engine.mode = false := by
  rw [exec_of_cur i hc.cur, ← execCommand_badState_iff i s.engine c.operand]
  exact ⟨eq_err_of_settle hc.pending, fun h => by rw [h, settle]⟩

/-! ## DEC_START (R222, R225) -/

/-- The engine state DEC_START leaves (R222). -/
def openedDec (e : Engine) (total count : Quad) : Engine := { e with total := total, count := count, pos := e.root, mode := .dec }

/-- DEC_START of a table of one symbol emits it TOTAL times (R225). -/
theorem ruleDecStart_one {e : Engine} {t : Quad} {r : NodeIdx} (h1 : e.nsym = 1) (hr : e.root = some r) :
    ruleDecStart e t = .ok (openedDec e t t) [⟨(nodeAt e.node r).data, t.toNat⟩] := by
  have hloaded : ¬(e.nsym = 0 ∧ t ≠ 0) := fun h => absurd (h1.symm.trans h.1) (by decide)
  simp only [ruleDecStart, if_neg hloaded, if_pos h1, hr, openedDec]

/-- DEC_START of any other table opens the walk at the root (R222). -/
theorem ruleDecStart_open {e : Engine} {t : Quad} (h1 : e.nsym ≠ 1) (h0 : e.nsym = 0 → t = 0) :
    ruleDecStart e t = .ok (openedDec e t 0) [] := by
  have hloaded : ¬(e.nsym = 0 ∧ t ≠ 0) := fun h => h.2 (h0 h.1)
  simp only [ruleDecStart, if_neg hloaded, if_neg h1, openedDec]

end Sys2Proof.Machine

namespace Sys2Proof.Proofs

open Sys2Proof.Machine

/-- Settles O8: ILLEGAL_CMD is E-EXEC's first test, BAD_STATE is the mode check's alone, and each rule's mode is the table's. -/
theorem modeLegalityTable : Obligations.ModeLegalityTable := by
  intro s c hc
  refine ⟨fun x hx => by simp only [engineExec, hx], fun i hi => ⟨fun hans => ?_, fun e' items h => ?_, fun hm hne => ?_⟩⟩
  · rw [exec_badState_iff i hc]
    cases i with
    | nop => simpa [legalIn] using hans
    | queryCode => simp [legalIn, and_assoc]
    | _ => simp [legalIn]
  · rw [exec_of_cur i hc.cur] at h
    have hmode := execCommand_mode (eq_ok_of_settle hc.pending h)
    cases i <;> exact hmode
  · rw [exec_badState_iff i hc, hm]
    cases i with
    | clear => exact absurd rfl hne
    | _ => rfl

/-- Settles O5: E-EXEC is enabled, and its word decodes. -/
theorem stepRunsTheLatchedCommand : Obligations.StepRunsTheLatchedCommand := by
  intro s rest c i hm hc hdec
  rw [step_exec hm hc, engineExec, hdec]

/-- Settles O6: E-EXEC is enabled, and its word does not decode. -/
theorem illegalWordTakesIllegalCmd : Obligations.IllegalWordTakesIllegalCmd := by
  intro s rest c x hm hc hdec
  rw [step_exec hm hc, engineExec, hdec]
  rfl

/-- Settles O9: the rule of NOP succeeds with the engine state as it is. -/
theorem nopChangesNothing : Obligations.NopChangesNothing := fun s hm =>
  exec_of_ok (by simp [legalIn, hm]) rfl

/-- Settles O10: CLEAR is legal in every mode. -/
theorem clearResetsTheEngineState : Obligations.ClearResetsTheEngineState := fun _ =>
  exec_of_ok rfl rfl

/-- Settles O12: with room in the arena the leaf is written at NNODES. -/
theorem loadSymLoadsOneLeaf : Obligations.LoadSymLoadsOneLeaf := by
  intro s c sym hc hm hnew hroom
  refine exec_of_ok_ready hc (by simp [legalIn, hm]) ?_
  simp only [ruleOf, ruleLoadSym, hnew, allocate, dif_pos hroom]
  rfl

/-- Settles O14: the rule tests PRESENT first. -/
theorem loadSymOfLoadedSymbolIsDupSymbol : Obligations.LoadSymOfLoadedSymbolIsDupSymbol := fun _ _ _ hc hm hhas =>
  exec_of_err hc (by simp [legalIn, hm]) (if_pos hhas)

/-- Settles O23, by the rule of QUERY_CODE in its three modes. -/
theorem queryCodeCopiesTheEntry : Obligations.QueryCodeCopiesTheEntry := fun s sym hm =>
  exec_of_ok (by simpa [legalIn, or_assoc] using hm) rfl

/-- Settles O25, by the rule of ENC_START in MODE = BUILT. -/
theorem encStartOpensAPass : Obligations.EncStartOpensAPass := fun s hm =>
  exec_of_ok (by simp [legalIn, hm]) rfl

/-- Settles O27: the rule tests CVALID, then COUNT. -/
theorem encSymErrorsInOrder : Obligations.EncSymErrorsInOrder := by
  intro s c sym hc hm
  refine ⟨fun hv => ?_, fun hv hcount => ?_⟩ <;> refine exec_of_err hc (by simp [legalIn, hm]) ?_
  · simp only [ruleOf, ruleEncSym, hv, Bool.false_eq_true, if_false]
  · simp only [ruleOf, ruleEncSym, hv, if_true, if_pos hcount]

/-- Settles O28: the rule's item is ACC where ACC_CNT is not 0. -/
theorem encFlushPadsAndCloses : Obligations.EncFlushPadsAndCloses := by
  intro s hm
  refine ⟨_, exec_of_ok (by simp [legalIn, hm]) rfl, fun h0 => ?_, fun hne => ?_⟩
  · rw [if_pos h0, itemsOf_nil]
  · rw [if_neg hne, itemsOf_run, List.replicate_one]

/-- Settles O33: the walk's stop rule holds at the first bit. -/
theorem decByteAfterTheLastSymbolDoesNothing : Obligations.DecByteAfterTheLastSymbolDoesNothing := by
  intro s v hm hcount
  refine exec_of_ok (by simp [legalIn, hm]) ?_
  have hstop : walkBits s.engine (byteBits v) = .ok (s.engine, []) := if_pos hcount
  simp only [ruleOf, ruleDecByte, hstop]
  rfl

/-- Settles O35: the rule compares COUNT with TOTAL. -/
theorem decEndChecksTheCount : Obligations.DecEndChecksTheCount := by
  intro s c hc hm
  have hl : legalIn .decEnd s.engine.mode = true := by simp [legalIn, hm]
  exact ⟨fun hdone => exec_of_ok hl (if_neg (Nat.not_lt.mpr hdone)), fun hshort => exec_of_err hc hl (if_pos hshort)⟩

/-- Settles O31: the rule's three branches; a table of one symbol has a root. -/
theorem decStartOpensAPass : Obligations.DecStartOpensAPass := by
  intro s c hc hm hb
  have hl : legalIn .decStart s.engine.mode = true := by simp [legalIn, hm]
  refine ⟨fun h0 ht => exec_of_err hc hl (if_pos ⟨h0, ht⟩), fun h1 => ?_, fun h1 h => ?_⟩
  · obtain ⟨r, hr, _⟩ := hb.rooted (by rw [h1]; decide)
    exact ⟨r, _, hr, itemsOf_run _ _, exec_of_ok_ready hc hl (ruleDecStart_one h1 hr)⟩
  · exact exec_of_ok_ready hc hl (ruleDecStart_open h1 fun h0 => h.resolve_left (not_not.mpr h0))

end Sys2Proof.Proofs
end

section
/-! # Loading and building a table (spec/41_tree_build.md rules R170 to R180) -/

namespace Sys2Proof.Machine

/-- Insert splits the list before the first node of greater key (R170, R171). -/
theorem insert_splits (nodes : List Node) (pl : List NodeIdx) (n : NodeIdx) :
    ∃ front back : List NodeIdx, pl = front ++ back ∧ insert nodes pl n = front ++ [n] ++ back ∧
      (∀ x ∈ front, keyLeProp (nodeAt nodes x) (nodeAt nodes n)) ∧
      ∀ x ∈ back.head?, ¬ keyLeProp (nodeAt nodes x) (nodeAt nodes n) := by
  induction pl with
  | nil => exact ⟨[], [], rfl, rfl, by simp, by simp⟩
  | cons x rest ih =>
    by_cases hx : keyLeProp (nodeAt nodes x) (nodeAt nodes n)
    · obtain ⟨front, back, rfl, hins, hfront, hback⟩ := ih
      refine ⟨x :: front, back, rfl, ?_, by simpa using ⟨hx, hfront⟩, hback⟩
      rw [insert, if_pos ((keyLe_iff _ _).mpr hx), hins]
      rfl
    · refine ⟨[], x :: rest, rfl, ?_, by simp, by simpa using hx⟩
      rw [insert, if_neg fun h => hx ((keyLe_iff _ _).mp h)]
      rfl

/-! ## The leaves of a priority list, as trees -/

/-- The leaves of PL in list order, as trees (R41). -/
def plLeaves (e : Engine) : List HTree := e.pl.map fun k => leafTree (nodeAt e.node k)

/-- Strict key order on trees (R9). -/
def HTree.keyLt (a b : HTree) : Prop := a.freq < b.freq ∨ (a.freq = b.freq ∧ a.data.toNat < b.data.toNat)

theorem HTree.keyLt_asymm {a b : HTree} (h1 : a.keyLt b) (h2 : b.keyLt a) : False := by
  unfold HTree.keyLt at h1 h2
  omega

/-- A loading table lists its leaves in strict key order (R41). -/
theorem Loading.plLeaves_sorted {e : Engine} (h : Loading e) : (plLeaves e).Pairwise HTree.keyLt :=
  List.pairwise_map.mpr <| h.sorted.imp fun hlt => hlt.imp id fun ⟨hf, hd⟩ => ⟨congrArg BitVec.toNat hf, hd⟩

/-- Two lists of trees in strict key order with the same members are one list. -/
theorem eq_of_perm_of_sorted {l l' : List HTree} (hp : l.Perm l') (hs : l.Pairwise HTree.keyLt) (hs' : l'.Pairwise HTree.keyLt) :
    l = l' :=
  hp.eq_of_pairwise (fun _ _ _ _ h1 h2 => (HTree.keyLt_asymm h1 h2).elim) hs hs'

/-- The leaf that LOAD_SYM of a pair makes, as a tree (R172). -/
def pairTree (p : Byte × Quad) : HTree := .leaf p.2.toNat p.1

/-- LOAD_SYM adds the pair's leaf to PL (R172). -/
theorem plLeaves_loadedEngine {e : Engine} (h : Loading e) (s : Byte) (f : Quad) {k : NodeIdx} (hk : k.val = e.node.length) :
    (plLeaves (loadedEngine e s f k)).Perm (pairTree (s, f) :: plLeaves e) := by
  have hnew : leafTree (nodeAt (e.node ++ [⟨.leaf, leafFreq f, s, 0, 0⟩]) k) = pairTree (s, f) := by
    have hfreq : (leafFreq f).toNat = f.toNat := by
      rw [leafFreq, BitVec.toNat_setWidth]
      exact Nat.mod_eq_of_lt (by have := f.isLt; omega)
    rw [nodeAt_append_eq _ _ _ hk, leafTree, pairTree, hfreq]
  have hold : (e.pl.map fun j => leafTree (nodeAt (e.node ++ [⟨.leaf, leafFreq f, s, 0, 0⟩]) j)) = plLeaves e :=
    List.map_congr_left fun j hj => by
      rw [nodeAt_append_lt]
      rw [h.only]
      exact (h.listed j).mp hj
  have hperm := (insert_perm (e.node ++ [⟨.leaf, leafFreq f, s, 0, 0⟩]) e.pl k).map
    fun j => leafTree (nodeAt (e.node ++ [⟨.leaf, leafFreq f, s, 0, 0⟩]) j)
  rw [List.map_cons, hnew, hold] at hperm
  exact hperm

/-! ## Sequences of commands -/

/-- A command that succeeds, then the rest (R91). -/
theorem runPass_cons {e e1 : Engine} {c : Issued} {items : List Run} {cs : List Issued}
    (hl : legalIn c.instr e.mode = true) (h : ruleOf c.instr e c.operand = .ok e1 items) :
    runPass e (c :: cs) = (runPass e1 cs).map fun p => (p.1, itemsOf items ++ p.2) := by
  simp only [runPass, execCommand_of_legal _ hl, h]
  cases runPass e1 cs <;> rfl

theorem runPass_append {cs ds : List Issued} : ∀ {e e1 e2 : Engine} {l1 l2 : List Byte}, runPass e cs = some (e1, l1) →
    runPass e1 ds = some (e2, l2) → runPass e (cs ++ ds) = some (e2, l1 ++ l2) := by
  induction cs with
  | nil =>
    rintro e _ e2 _ l2 ⟨⟩ h2
    exact h2
  | cons c cs ih =>
    intro e e1 e2 l1 l2 h1 h2
    cases hx : execCommand e c.instr c.operand with
    | ok e' items =>
      cases hp : runPass e' cs with
      | none => simp [runPass, hx, hp] at h1
      | some p =>
        simp only [runPass, hx, hp] at h1
        cases h1
        have htail := ih hp h2
        simp only [List.cons_append, runPass, hx, htail, List.append_assoc]
    | err code => simp [runPass, hx] at h1
    | stuck f => simp [runPass, hx] at h1

/-- CLEAR begins every sequence at the reset engine state (R153). -/
theorem runPass_clear (e : Engine) (cs : List Issued) : runPass e (plain .clear :: cs) = runPass Engine.reset cs := by
  rw [runPass_cons (c := plain .clear) (e1 := Engine.reset) rfl rfl]
  cases runPass Engine.reset cs <;> rfl

/-- Loading new, distinct symbols succeeds: the table stays loading, holds just those symbols more, and their leaves in PL
(R172, R173). -/
theorem runPass_loadAll (table : List (Byte × Quad)) : ∀ {e : Engine}, Loading e → e.mode = .load →
    (table.map Prod.fst).Nodup → (∀ p ∈ table, e.has p.1 = false) →
    ∃ e', runPass e (loadAll table) = some (e', []) ∧ Loading e' ∧ e'.mode = .load ∧
      (plLeaves e').Perm (table.map pairTree ++ plLeaves e) ∧
      ∀ x, e'.has x = true ↔ e.has x = true ∨ x ∈ table.map Prod.fst := by
  induction table with
  | nil => exact fun {e} h hm _ _ => ⟨e, rfl, h, hm, .refl _, by simp⟩
  | cons p table ih =>
    intro e h hm hnd hnew
    rw [List.map_cons, List.nodup_cons] at hnd
    obtain ⟨k, hk, hrule, hload⟩ := ruleLoadSym_spec h p.1 p.2 (hnew p List.mem_cons_self)
    have hhas : ∀ x, (loadedEngine e p.1 p.2 k).has x = (e.has x || decide (p.1 = x)) := fun x => has_setPresent e p.1 x _ _ _
    have hnew' : ∀ q ∈ table, (loadedEngine e p.1 p.2 k).has q.1 = false := fun q hq => by
      have hne : p.1 ≠ q.1 := fun he => hnd.1 (he ▸ List.mem_map_of_mem hq)
      rw [hhas, hnew q (List.mem_cons_of_mem p hq), Bool.false_or, decide_eq_false hne]
    obtain ⟨e', hrun, hload', hm', hleaves, hhas'⟩ := ih hload hm hnd.2 hnew'
    refine ⟨e', ?_, hload', hm', ?_, fun x => ?_⟩
    · have hstep := runPass_cons (c := ⟨.loadSym p.1, p.2⟩) (cs := loadAll table) (by simp [legalIn, hm]) hrule
      rw [hrun] at hstep
      exact hstep
    · refine hleaves.trans (((plLeaves_loadedEngine h p.1 p.2 hk).append_left _).trans ?_)
      exact List.perm_middle
    · rw [hhas', hhas]
      rw [List.map_cons, List.mem_cons, Bool.or_eq_true, decide_eq_true_eq, or_assoc, eq_comm (a := x)]

/-- A table of distinct symbols, loaded and built from reset: it is built, its codes are those of the plain merge algorithm on
the table's leaves in key order, and exactly its symbols are present (R173, R176, R177). -/
theorem runPass_buildTable (table : List (Byte × Quad)) (hnd : (table.map Prod.fst).Nodup) :
    ∃ b leaves, runPass Engine.reset (loadAll table ++ [plain .build]) = some (b, []) ∧ b.mode = .built ∧ Built b ∧
      (∀ x, b.has x = true ↔ x ∈ table.map Prod.fst) ∧
      leaves.Perm (table.map pairTree) ∧ leaves.Pairwise HTree.keyLt ∧
      ∀ sym, codeAt b.code sym = HTree.entryOf (HTree.mergeAll leaves.length leaves) sym := by
  obtain ⟨e, hrun, hload, hm, hleaves, hhas⟩ := runPass_loadAll table loading_reset rfl hnd fun p _ => has_reset p.1
  obtain ⟨nodes, root, t, hrule, hbuilt, _, _, hcodes⟩ := ruleBuild_spec hload
  refine ⟨_, plLeaves e, runPass_append hrun ?_, rfl, hbuilt, fun x => ?_, ?_, hload.plLeaves_sorted, fun sym => ?_⟩
  · exact runPass_cons (c := plain .build) (by simp [plain, legalIn, hm]) hrule
  · exact (hhas x).trans (by simp [has_reset])
  · simpa [plLeaves, Engine.reset] using hleaves
  · rw [plLeaves, List.length_map]
    exact hcodes sym

end Sys2Proof.Machine

namespace Sys2Proof.Proofs

open Sys2Proof.Machine

/-- Settles O11, by induction on the list. -/
theorem insertPlacesByKeyAfterEquals : Obligations.InsertPlacesByKeyAfterEquals := insert_splits

/-- Settles O13, by the law `ruleLoadSym_spec` about LOAD_SYM in a loading table. -/
theorem loadSymKeepsTheListSorted : Obligations.LoadSymKeepsTheListSorted := by
  intro s c sym hc hm hload hnew
  obtain ⟨k, _, hrule, hload'⟩ := ruleLoadSym_spec hload sym c.operand hnew
  refine ⟨_, exec_of_ok_ready hc (by simp [legalIn, hm]) hrule, hload', ?_, fun x => ?_⟩
  · rw [← hload'.only, ← hload.only]
    exact List.length_append
  · rw [loadedEngine, has_setPresent]
    simp [eq_comm, Bool.beq_eq_decide_eq]

/-- Settles O16, by the law `ruleBuild_spec` about BUILD of a loading table. -/
theorem buildMergesToOneRoot : Obligations.BuildMergesToOneRoot := by
  intro s hm hload
  obtain ⟨nodes, root, t, hrule, hbuilt, hleaf, hfreq, _⟩ := ruleBuild_spec hload
  refine ⟨nodes, root, t, exec_of_ok (by simp [legalIn, hm]) hrule, hbuilt.merges, hleaf, hbuilt.rootless, fun hne => ?_, hbuilt⟩
  obtain ⟨r, hr, hlast⟩ := hbuilt.rooted hne
  exact ⟨r, hr, hlast, hfreq r hr⟩

/-- Settles O17: the arena's merges and its code walk are those of the trees as values (`mergeAll_trees`, `walkCodes_spec`). -/
theorem buildIsThePlainMergeAlgorithm : Obligations.BuildIsThePlainMergeAlgorithm := by
  intro s hm hload
  obtain ⟨nodes, root, t, hrule, _, _, _, hcodes⟩ := ruleBuild_spec hload
  exact ⟨_, exec_of_ok (by simp [legalIn, hm]) hrule, hcodes⟩

/-- Settles O22: the codes are a function of the leaves in strict key order, and two tables of the same pairs have the same
leaves in that order. -/
theorem buildDependsOnTheLoadedSetOnly : Obligations.BuildDependsOnTheLoadedSetOnly := by
  intro e1 e2 l1 l2 hnd hp
  obtain ⟨b1, t1, hrun1, _, _, _, hperm1, hsort1, hcode1⟩ := runPass_buildTable l1 hnd
  obtain ⟨b2, t2, hrun2, _, _, _, hperm2, hsort2, hcode2⟩ := runPass_buildTable l2 ((hp.map _).nodup_iff.mp hnd)
  have hleaves : t1 = t2 := eq_of_perm_of_sorted (hperm1.trans ((hp.map _).trans hperm2.symm)) hsort1 hsort2
  refine ⟨b1, b2, ?_, hrun1, ?_, fun sym => by rw [hcode1, hcode2, hleaves]⟩
  · exact (runPass_clear e1 _).trans hrun1
  · exact (runPass_clear e2 _).trans hrun2

end Sys2Proof.Proofs
end

section
/-! # The codes of a built table: a path of the tree for each leaf (spec/41_tree_build.md rules R177, R180, R181) -/

namespace Sys2Proof.Machine

/-! ## Paths -/

theorem follow_append (nodes : List Node) (q : List Bool) : ∀ (k : NodeIdx) (p : List Bool),
    follow nodes k (q ++ p) = (follow nodes k q).bind fun m => follow nodes m p := by
  induction q with
  | nil => exact fun k p => rfl
  | cons b q ih =>
    intro k p
    simp only [List.cons_append, follow]
    split
    · exact ih _ p
    · rfl

/-- No path leads on from a leaf (R177). -/
theorem follow_leaf {nodes : List Node} {k m : NodeIdx} {q : List Bool} (hk : (nodeAt nodes k).kind = .leaf)
    (h : follow nodes k q = some m) : q = [] ∧ m = k := by
  cases q with
  | nil => exact ⟨rfl, (Option.some.inj h).symm⟩
  | cons b q => simp [follow, hk] at h

/-- From an INTERNAL entry it takes a step to reach a leaf (R177). -/
theorem path_ne_nil {nodes : List Node} {k m : NodeIdx} {q : List Bool} (hk : (nodeAt nodes k).kind = .internal)
    (hm : (nodeAt nodes m).kind = .leaf) (h : follow nodes k q = some m) : q ≠ [] := by
  rintro rfl
  cases h
  rw [hk] at hm
  cases hm

/-- Enough bits lead from an entry to a leaf, whatever they are (R181). -/
theorem exists_leaf_prefix {n : Nat} {nodes : List Node} (h : Shaped n nodes) (bits : List Bool) :
    ∀ k : NodeIdx, k.val < nodes.length → depthBound n k ≤ bits.length + 1 →
      ∃ q m, q <+: bits ∧ follow nodes k q = some m ∧ m.val < n := by
  induction bits with
  | nil =>
    intro k _ hd
    refine ⟨[], k, List.nil_prefix, rfl, ?_⟩
    by_contra hn
    simp only [depthBound, if_neg hn, List.length_nil] at hd
    omega
  | cons b bits ih =>
    intro k hk hd
    by_cases hn : k.val < n
    · exact ⟨[], k, List.nil_prefix, rfl, hn⟩
    · obtain ⟨hkind, hleft, hright⟩ := h.internal k (by omega) hk
      have hchild : (childOf (nodeAt nodes k) b).val < k.val := by cases b <;> simpa [childOf]
      have hdepth := depthBound_child (n := n) (by omega) hchild
      rw [List.length_cons] at hd
      obtain ⟨q, m, hq, hfollow, hm⟩ := ih (childOf (nodeAt nodes k) b) (by omega) (by omega)
      exact ⟨b :: q, m, List.cons_prefix_cons.mpr ⟨rfl, hq⟩, by simpa [follow, hkind] using hfollow, hm⟩

/-! ## The root -/

/-- A table with a symbol has its root at entry 2n - 2 (R180). -/
theorem Built.root {e : Engine} (h : Built e) (hne : e.nsym ≠ 0) :
    ∃ r : NodeIdx, e.root = some r ∧ r.val + 2 = 2 * e.nsym.toNat ∧ r.val < e.node.length ∧ 0 < e.nsym.toNat := by
  obtain ⟨r, hr, hlast⟩ := h.rooted hne
  have hmerges := h.merges
  have hpos : e.nsym.toNat ≠ 0 := fun h0 => hne (BitVec.eq_of_toNat_eq h0)
  exact ⟨r, hr, by omega, by omega, by omega⟩

/-- Only a table with a symbol has one present. -/
theorem Built.nsym_ne_zero {e : Engine} (h : Built e) {x : Byte} (hx : e.has x = true) : e.nsym ≠ 0 := by
  intro h0
  obtain ⟨k, hk, _⟩ := h.leaves.covered x hx
  rw [h0] at hk
  exact absurd hk (Nat.not_lt_zero _)

/-- The walk from the root is at most n turns deep (R180). -/
theorem depthBound_root {n : Nat} {r : NodeIdx} (h : r.val + 2 = 2 * n) : depthBound n r = n := by
  unfold depthBound
  split <;> omega

/-- The root is an entry in use, and the arena's capacity covers the depth of its tree (R180). -/
theorem Built.root_lt {e : Engine} (h : Built e) {r : NodeIdx} (hr : e.root = some r) :
    r.val < e.node.length ∧ depthBound e.nsym.toNat r ≤ nNodes := by
  have hne : e.nsym ≠ 0 := fun h0 => by rw [h.rootless h0] at hr; cases hr
  obtain ⟨r', hr', hroot, hlt, _⟩ := h.root hne
  cases hr.symm.trans hr'
  exact ⟨hlt, (depthBound_root hroot).le.trans (h.leaves.nsym_le.trans (by decide))⟩

/-- Where a path from the root ends in a leaf, it is the code of the leaf's symbol (R177, R181). -/
theorem Built.path_eq {e : Engine} (h : Built e) {r m : NodeIdx} {q : List Bool} (hr : e.root = some r)
    (hq : follow e.node r q = some m) (hm : m.val < e.nsym.toNat) :
    e.has (nodeAt e.node m).data = true ∧ (codeAt e.code (nodeAt e.node m).data).path = q := by
  have hhas := (h.leaves.leaf m hm).2.2
  obtain ⟨hlt, hdepth⟩ := h.root_lt hr
  have hcode := codeOf_of_path h.shaped nNodes r q m hlt hdepth hq hm (h.once r hr)
  exact ⟨hhas, Option.some.inj ((h.codeOf hr _ hhas).symm.trans hcode)⟩

/-- A code is shorter than the number of symbols, and empty only where there is one symbol (R180). -/
theorem Built.code_length {e : Engine} (h : Built e) {x : Byte} (hx : e.has x = true) :
    (codeAt e.code x).len.toNat < e.nsym.toNat ∧ ((codeAt e.code x).len.toNat = 0 ↔ e.nsym = 1) := by
  obtain ⟨r, hr, hroot, hlt, hpos⟩ := h.root (h.nsym_ne_zero hx)
  obtain ⟨m, hm, hmn, _⟩ := h.path x r hx hr
  have hsmall := h.leaves.nsym_le
  have hdepth := depthBound_root hroot
  have hfuel := treeAt_depth h.shaped e.nsym.toNat nNodes r hlt hdepth.le (hdepth.le.trans (hsmall.trans (by decide)))
  have hcode := h.codeOf hr x hx
  rw [← hfuel] at hcode
  have hlen := (codeOf_follow h.shaped _ r x _ hlt hdepth.le hcode).1
  rw [path_length] at hlen
  refine ⟨hlen, fun h0 => ?_, fun h1 => ?_⟩
  · by_contra hne
    have hne1 : e.nsym.toNat ≠ 1 := fun h1 => hne (BitVec.eq_of_toNat_eq h1)
    have hkind := (h.internal r (by omega) hlt).1
    refine path_ne_nil hkind (h.leaves.leaf m hmn).1 hm (List.eq_nil_of_length_eq_zero ?_)
    rw [path_length, h0]
  · rw [h1] at hlen
    exact Nat.lt_one_iff.mp hlen

/-! ## The code lengths fill the tree -/

/-- The length of a symbol's code in a tree, 0 where it has none (R177). -/
def HTree.codeLen (t : HTree) (s : Byte) : Nat := ((t.codeOf s).getD []).length

theorem HTree.codeLen_right {f : Nat} {d s : Byte} {l r : HTree} (hs : s ∈ r.syms) :
    (HTree.node f d l r).codeLen s = r.codeLen s + 1 := by
  obtain ⟨p, hp⟩ := Option.isSome_iff_exists.mp ((HTree.mem_syms_of_codeOf r s).mpr hs)
  simp [HTree.codeLen, HTree.codeOf, hp]

theorem HTree.codeLen_left {f : Nat} {d s : Byte} {l r : HTree} (hs : s ∈ l.syms) (hr : s ∉ r.syms) :
    (HTree.node f d l r).codeLen s = l.codeLen s + 1 := by
  obtain ⟨p, hp⟩ := Option.isSome_iff_exists.mp ((HTree.mem_syms_of_codeOf l s).mpr hs)
  have hnone : r.codeOf s = none := Option.not_isSome_iff_eq_none.mp fun h => hr ((HTree.mem_syms_of_codeOf r s).mp h)
  simp [HTree.codeLen, HTree.codeOf, hp, hnone]

/-- The share of the 2^d bit sequences of length d that begin with a symbol's code, summed over the tree's leaves (R181). -/
def HTree.share (t : HTree) (d : Nat) : Nat := (t.syms.map fun s => 2 ^ (d - t.codeLen s)).sum

@[simp] theorem HTree.share_leaf (f : Nat) (x : Byte) (d : Nat) : (HTree.leaf f x).share d = 2 ^ d := by
  simp [HTree.share, HTree.syms, HTree.codeLen, HTree.codeOf]

/-- The codes of a node's subtrees are one bit longer (R177). -/
theorem HTree.share_node {f : Nat} {x : Byte} {l r : HTree} (d : Nat) (hdis : ∀ a ∈ l.syms, ∀ b ∈ r.syms, a ≠ b) :
    (HTree.node f x l r).share (d + 1) = l.share d + r.share d := by
  have hl : ∀ s ∈ l.syms, 2 ^ (d + 1 - (HTree.node f x l r).codeLen s) = 2 ^ (d - l.codeLen s) := fun s hs => by
    rw [HTree.codeLen_left hs fun hr => hdis s hs s hr rfl, Nat.add_sub_add_right]
  have hr : ∀ s ∈ r.syms, 2 ^ (d + 1 - (HTree.node f x l r).codeLen s) = 2 ^ (d - r.codeLen s) := fun s hs => by
    rw [HTree.codeLen_right hs, Nat.add_sub_add_right]
  simp only [HTree.share, HTree.syms, List.map_append, List.sum_append]
  rw [List.map_congr_left hl, List.map_congr_left hr]

/-- The tree under an entry, no symbol twice, fills the bit sequences of any length that covers its depth (R181). -/
theorem share_treeAt {n : Nat} {nodes : List Node} (h : Shaped n nodes) (d : Nat) : ∀ k : NodeIdx, k.val < nodes.length →
    depthBound n k ≤ d + 1 → (treeAt nodes (d + 1) k).syms.Nodup → (treeAt nodes (d + 1) k).share d = 2 ^ d := by
  have hleaf : ∀ (d : Nat) (k : NodeIdx), k.val < n → (treeAt nodes (d + 1) k).share d = 2 ^ d := fun d k hn => by
    simp only [treeAt, h.leaf k hn, leafTree, HTree.share_leaf]
  induction d with
  | zero =>
    intro k hk hd _
    refine hleaf 0 k ?_
    by_contra hn
    simp only [depthBound, if_neg hn] at hd
    omega
  | succ d ih =>
    intro k hk hd hnd
    by_cases hn : k.val < n
    · exact hleaf (d + 1) k hn
    · obtain ⟨hkind, hleft, hright⟩ := h.internal k (by omega) hk
      have hdl := depthBound_child (n := n) (by omega) hleft
      have hdr := depthBound_child (n := n) (by omega) hright
      rw [treeAt_internal nodes (d + 1) k hkind] at hnd ⊢
      obtain ⟨hndl, hndr, hdis⟩ := List.nodup_append.mp hnd
      rw [HTree.share_node d hdis, ih _ (by omega) (by omega) hndl, ih _ (by omega) (by omega) hndr]
      omega

/-- The leaves of a built tree are the symbols present (R180). -/
theorem Built.syms_perm {e : Engine} (h : Built e) {r : NodeIdx} (hr : e.root = some r) :
    (treeAt e.node nNodes r).syms.Perm (allSymbols.filter fun x => e.has x) := by
  obtain ⟨hlt, hdepth⟩ := h.root_lt hr
  refine (List.perm_ext_iff_of_nodup (h.once r hr) (nodup_allSymbols.filter _)).mpr fun x => ?_
  rw [List.mem_filter, ← HTree.mem_syms_of_codeOf]
  refine Iff.trans ⟨fun hx => ?_, fun hx => ?_⟩ (and_iff_right (mem_allSymbols x)).symm
  · obtain ⟨q, hq⟩ := Option.isSome_iff_exists.mp hx
    obtain ⟨_, m, hfollow, hm, hdata⟩ := codeOf_follow h.shaped nNodes r x q hlt hdepth hq
    exact hdata ▸ (h.path_eq hr hfollow hm).1
  · rw [h.codeOf hr x hx]; rfl

end Sys2Proof.Machine

namespace Sys2Proof.Proofs

open Sys2Proof.Machine

/-- Settles O18: an absent symbol's entry is not valid, and `Built.code_length` bounds the others. -/
theorem codeLengthsOfABuiltTable : Obligations.CodeLengthsOfABuiltTable := by
  intro e h sym
  refine ⟨fun hs => (h.coded sym).trans hs, fun hs => ⟨(h.coded sym).trans hs, fun h1 => ?_, fun h1 => ?_⟩⟩
  · exact BitVec.eq_of_toNat_eq ((h.code_length hs).2.mpr h1)
  · have hlt := (h.code_length hs).1
    have hpos := mt (h.code_length hs).2.mp h1
    omega

/-- Settles O19: a code ends in its symbol's leaf, from which no path leads on. -/
theorem codesArePrefixFree : Obligations.CodesArePrefixFree := by
  rintro e x y h hx hy hne ⟨q, hq⟩
  obtain ⟨r, hr, _⟩ := h.root (h.nsym_ne_zero hx)
  obtain ⟨mx, hmx, hmxn, hdx⟩ := h.path x r hx hr
  obtain ⟨my, hmy, _, hdy⟩ := h.path y r hy hr
  rw [← hq, follow_append, hmx] at hmy
  obtain ⟨_, rfl⟩ := follow_leaf (h.leaves.leaf mx hmxn).1 hmy
  exact hne (hdx.symm.trans hdy)

/-- Settles O20: 255 bits are enough to reach a leaf, and the path to it is its symbol's code. -/
theorem everyBitSequenceMeetsALeaf : Obligations.EveryBitSequenceMeetsALeaf := by
  intro e bits h hne hlen
  obtain ⟨r, hr, hroot, hlt, _⟩ := h.root hne
  have hsmall := h.leaves.nsym_le
  obtain ⟨q, m, hq, hfollow, hm⟩ := exists_leaf_prefix h.shaped bits r hlt (by rw [depthBound_root hroot, hlen]; exact hsmall)
  obtain ⟨hhas, hcode⟩ := h.path_eq hr hfollow hm
  exact ⟨_, hhas, hcode ▸ hq⟩

/-- Settles O21: the codes are the paths of the tree under the root, whose leaves are the symbols present. -/
theorem codeLengthsFillTheTree : Obligations.CodeLengthsFillTheTree := by
  intro e h hne
  obtain ⟨r, hr, hroot, hlt, _⟩ := h.root hne
  have hsmall := h.leaves.nsym_le
  have hdepth : depthBound e.nsym.toNat r ≤ 255 + 1 := by rw [depthBound_root hroot]; exact hsmall
  have hfuel := treeAt_depth h.shaped (255 + 1) nNodes r hlt hdepth (hdepth.trans (by decide))
  have hlens : ∀ x ∈ allSymbols.filter fun x => e.has x,
      2 ^ (255 - (codeAt e.code x).len.toNat) = 2 ^ (255 - (treeAt e.node nNodes r).codeLen x) := fun x hx => by
    rw [HTree.codeLen, h.codeOf hr x (List.mem_filter.mp hx).2, Option.getD_some, path_length]
  calc ((allSymbols.filter fun x => e.has x).map fun x => 2 ^ (255 - (codeAt e.code x).len.toNat)).sum
    _ = ((allSymbols.filter fun x => e.has x).map fun x => 2 ^ (255 - (treeAt e.node nNodes r).codeLen x)).sum := by
      rw [List.map_congr_left hlens]
    _ = (treeAt e.node nNodes r).share 255 := (((h.syms_perm hr).map _).sum_eq).symm
    _ = 2 ^ 255 := by rw [← hfuel]; exact share_treeAt h.shaped 255 r hlt hdepth (by rw [hfuel]; exact h.once r hr)

end Sys2Proof.Proofs
end

section
/-! # The packer: ENC_SYM and the packed stream of a pass (spec/42_encode.md rules R202, R204, R205) -/

namespace Sys2Proof.Machine

@[simp] theorem accBits_length (e : Engine) : (accBits e).length = e.accCnt.toNat := by simp [accBits]

@[simp] theorem length_flatMap_byteBits (l : List Byte) : (l.flatMap byteBits).length = 8 * l.length := by
  rw [List.length_flatMap, List.map_congr_left fun b _ => byteBits_length b]
  simp [Nat.mul_comm]

/-- The accumulator's bits, padded, are those of the byte it is emitted as: its high bits are 0 (R203, R204). -/
theorem byteBits_acc {e : Engine} (h : e.acc.toNat < 2 ^ e.accCnt.toNat) :
    byteBits e.acc = accBits e ++ List.replicate (8 - e.accCnt.toNat) false := by
  have hlt : e.accCnt.toNat < 8 := e.accCnt.isLt
  refine List.ext_getElem (by simp; omega) fun i hi _ => ?_
  by_cases hlow : i < e.accCnt.toNat
  · rw [List.getElem_append_left (by simpa using hlow)]
    simp [byteBits, accBits]
  · rw [List.getElem_append_right (by simpa using hlow)]
    simp [byteBits, high_of_lt_two_pow e.acc _ i h (Nat.not_lt.mp hlow)]

/-- As many whole bytes come out as the bits before and after allow (R202). -/
theorem packBits_length (bs : List Bool) {e : Engine} (h : e.acc.toNat < 2 ^ e.accCnt.toNat) :
    (packBits e bs).2.length = (e.accCnt.toNat + bs.length) / 8 := by
  have hlen := congrArg List.length (packBits_spec bs e h).1
  have hlt : (packBits e bs).1.accCnt.toNat < 8 := (packBits e bs).1.accCnt.isLt
  rw [List.length_append, List.length_append, accBits_length, accBits_length, length_flatMap_byteBits] at hlen
  omega

/-- The engine state in a pass: of e, with the accumulator and COUNT given (R45, R47). -/
def inPass (e : Engine) (acc : Byte) (accCnt : BitVec 3) (count : Quad) : Engine :=
  { e with acc := acc, accCnt := accCnt, count := count }

/-- The rule of ENC_SYM where it succeeds (R202). -/
theorem ruleEncSym_ok {e : Engine} {s : Byte} (hv : (codeAt e.code s).valid = true) (hc : e.count ≠ BitVec.allOnes 64) :
    ruleEncSym e s = .ok
      (inPass e (packBits e (codeAt e.code s).path).1.acc (packBits e (codeAt e.code s).path).1.accCnt (e.count + 1))
      (runsOf (packBits e (codeAt e.code s).path).2) := by
  simp only [ruleEncSym, hv, if_true, if_neg hc]
  rw [packBits_frame]
  rfl

/-! ## A pass (R205) -/

theorem codeStream_cons (e : Engine) (b : Byte) (bytes : List Byte) :
    codeStream e (b :: bytes) = (codeAt e.code b).path ++ codeStream e bytes := rfl

/-- COUNT goes up by one where it does not wrap (R202). -/
theorem toNat_count_succ {c : Quad} {n : Nat} (h : c.toNat + (n + 1) < 2 ^ 64) : (c + 1).toNat = c.toNat + 1 := by
  rw [BitVec.toNat_add]
  exact Nat.mod_eq_of_lt (by show c.toNat + 1 < 2 ^ 64; omega)

theorem count_add_succ (c : Quad) (n : Nat) : c + 1 + BitVec.ofNat 64 n = c + BitVec.ofNat 64 (n + 1) := by
  rw [BitVec.add_assoc, BitVec.ofNat_add, BitVec.add_comm 1]
  rfl

/-- Consecutive ENC_SYM commands: the codes go after the bits in the accumulator and come out of it in order (R205). -/
theorem runPass_encSyms (bytes : List Byte) : ∀ {e : Engine}, e.mode = .enc → e.acc.toNat < 2 ^ e.accCnt.toNat →
    (∀ b ∈ bytes, (codeAt e.code b).valid = true) → e.count.toNat + bytes.length < 2 ^ 64 →
    ∃ acc accCnt l,
      runPass e (bytes.map fun b => plain (.encSym b)) =
        some (inPass e acc accCnt (e.count + BitVec.ofNat 64 bytes.length), l) ∧
      accBits e ++ codeStream e bytes = l.flatMap byteBits ++ accBits (inPass e acc accCnt 0) ∧
      acc.toNat < 2 ^ accCnt.toNat := by
  induction bytes with
  | nil =>
    intro e _ hacc _ _
    refine ⟨e.acc, e.accCnt, [], ?_, List.append_nil _, hacc⟩
    simp [runPass, inPass]
  | cons b bytes ih =>
    intro e hm hacc hv hlen
    rw [List.length_cons] at hlen
    have hcount : e.count ≠ BitVec.allOnes 64 := fun h => by
      rw [h, BitVec.toNat_allOnes] at hlen
      omega
    obtain ⟨hbits, hacc'⟩ := packBits_spec (codeAt e.code b).path e hacc
    have hrule := ruleEncSym_ok (hv b List.mem_cons_self) hcount
    obtain ⟨acc, accCnt, l, hrun, hstream, hclean⟩ := ih
      (e := inPass e (packBits e (codeAt e.code b).path).1.acc (packBits e (codeAt e.code b).path).1.accCnt (e.count + 1))
      hm hacc' (fun x hx => hv x (List.mem_cons_of_mem b hx))
      (by show (e.count + 1).toNat + bytes.length < 2 ^ 64; rw [toNat_count_succ hlen]; omega)
    refine ⟨acc, accCnt, (packBits e (codeAt e.code b).path).2 ++ l, ?_, ?_, hclean⟩
    · rw [List.map_cons, runPass_cons (c := plain (.encSym b)) (by simp [plain, legalIn, hm]) hrule, hrun, List.length_cons,
        ← count_add_succ, itemsOf_runsOf]
      rfl
    · rw [codeStream_cons, ← List.append_assoc, hbits, List.append_assoc, List.flatMap_append, List.append_assoc]
      exact congrArg _ hstream

/-- ENC_FLUSH emits the accumulator's bits, padded with fewer than eight zeros, or nothing where there is none (R203). -/
theorem flush_bits {e : Engine} (h : e.acc.toNat < 2 ^ e.accCnt.toNat) :
    ∃ k, k < 8 ∧
      (itemsOf (if e.accCnt = 0 then [] else [⟨e.acc, 1⟩])).flatMap byteBits = accBits e ++ List.replicate k false := by
  by_cases h0 : e.accCnt = 0
  · exact ⟨0, by decide, by simp [h0, accBits]⟩
  · have hpos : e.accCnt.toNat ≠ 0 := fun hn => h0 (BitVec.eq_of_toNat_eq hn)
    refine ⟨8 - e.accCnt.toNat, by omega, ?_⟩
    rw [if_neg h0, itemsOf_run, ← byteBits_acc h]
    simp

/-- A whole pass from MODE = BUILT: the stream's bits are those of the codes, padded with fewer than eight zeros (R205). -/
theorem runPass_encodePass {e : Engine} {bytes : List Byte} (hm : e.mode = .built)
    (hv : ∀ b ∈ bytes, (codeAt e.code b).valid = true) (hlen : bytes.length < 2 ^ 64) :
    ∃ stream k, runPass e (encodePass bytes) =
        some ({ e with acc := 0, accCnt := 0, count := BitVec.ofNat 64 bytes.length, mode := .built }, stream) ∧
      stream.flatMap byteBits = codeStream e bytes ++ List.replicate k false ∧ k < 8 := by
  obtain ⟨acc, accCnt, l, hrun, hbits, hclean⟩ :=
    runPass_encSyms bytes (e := { e with acc := 0, accCnt := 0, count := 0, mode := .enc }) rfl Nat.one_pos hv
      (by simpa using hlen)
  obtain ⟨k, hk, hflush⟩ := flush_bits (e := inPass e acc accCnt 0) hclean
  refine ⟨l ++ itemsOf (if accCnt = 0 then [] else [⟨acc, 1⟩]), k, ?_, ?_, hk⟩
  · rw [encodePass, List.cons_append, runPass_cons (c := plain .encStart) (by simp [plain, legalIn, hm]) rfl,
      runPass_append hrun (runPass_cons (c := plain .encFlush) (cs := []) rfl rfl)]
    simp [inPass]
  · rw [List.flatMap_append]
    have hflush' : (itemsOf (if accCnt = 0 then [] else [⟨acc, 1⟩])).flatMap byteBits = _ := hflush
    have hbits' : codeStream e bytes = l.flatMap byteBits ++ accBits (inPass e acc accCnt 0) := hbits
    rw [hflush', hbits', List.append_assoc]

/-! ## The bits of a stream -/

/-- Bit i of byte j stands at 8j + i of the stream's bits (R205). -/
theorem getD_flatMap_byteBits (l : List Byte) {i : Nat} (hi : i < 8) :
    ∀ j : Nat, (l.flatMap byteBits).getD (8 * j + i) false = (l.getD j 0).getLsbD i := by
  induction l with
  | nil => simp
  | cons b l ih =>
    intro j
    rw [List.flatMap_cons]
    cases j with
    | zero =>
      rw [List.getD_append _ _ _ _ (by simpa using hi)]
      simp [byteBits, hi]
    | succ j =>
      rw [List.getD_append_right _ _ _ _ (by simp; omega), byteBits_length, show 8 * (j + 1) + i - 8 = 8 * j + i by omega, ih]
      rfl

theorem getD_append_replicate_false (l : List Bool) (k i : Nat) :
    (l ++ List.replicate k false).getD i false = l.getD i false := by
  rcases Nat.lt_or_ge i l.length with hi | hi
  · rw [List.getD_append _ _ _ _ hi]
  · rw [List.getD_append_right _ _ _ _ hi, List.getD_eq_default _ _ hi]
    simp

end Sys2Proof.Machine

namespace Sys2Proof.Proofs

open Sys2Proof.Machine

/-- Settles O26, by the law `packBits_spec` about a sequence of PackBit. -/
theorem encSymAppendsTheCode : Obligations.EncSymAppendsTheCode := by
  intro s sym hm hacc hv hc
  obtain ⟨hbits, hclean⟩ := packBits_spec (codeAt s.engine.code sym).path s.engine hacc
  have hlen := packBits_length (codeAt s.engine.code sym).path hacc
  rw [path_length] at hlen
  refine ⟨_, _, _, exec_of_ok (by simp [legalIn, hm]) (ruleEncSym_ok hv hc), ?_, hclean, ?_, ?_⟩
  · rw [itemsOf_runsOf, hbits]
    rfl
  · rw [itemsOf_runsOf, hlen]
  · rw [itemsOf_runsOf, hlen]
    have := s.engine.accCnt.isLt
    have := (codeAt s.engine.code sym).len.isLt
    omega

/-- Settles O29: the stream's bits are the codes and fewer than eight zeros, which gives its length and each of its bits. -/
theorem packedStreamOfAPass : Obligations.PackedStreamOfAPass := by
  intro e bytes hm hv hlen
  obtain ⟨stream, k, hrun, hbits, hk⟩ := runPass_encodePass hm hv hlen
  refine ⟨stream, hrun, ?_, fun j i _ hi => ?_⟩
  · have hcount := congrArg List.length hbits
    rw [length_flatMap_byteBits, List.length_append, List.length_replicate] at hcount
    omega
  · rw [← getD_flatMap_byteBits stream hi, hbits, getD_append_replicate_false]

end Sys2Proof.Proofs
end

section
/-! # The walker: DEC_BYTE, decoding a code, and the round trip (spec/43_decode.md rules R221 to R227) -/

namespace Sys2Proof.Machine

/-! ## The walk over a bit sequence (R223) -/

/-- The stop rule of R223. -/
theorem walkBits_stop {e : Engine} (h : e.count = e.total) (bs : List Bool) : walkBits e bs = .ok (e, []) := by
  cases bs with
  | nil => rfl
  | cons b bs => exact if_pos h

theorem walkBits_cons {e e1 : Engine} {b : Bool} {l : List Byte} (hne : e.count ≠ e.total) (h : walkBit e b = .ok (e1, l))
    (bs : List Bool) : walkBits e (b :: bs) = (walkBits e1 bs).map fun r => (r.1, l ++ r.2) := by
  simp only [walkBits, if_neg hne, h]
  cases walkBits e1 bs <;> rfl

/-- A walk over two sequences is a walk over the first, then over the second. -/
theorem walkBits_append (as bs : List Bool) : ∀ {e e' : Engine} {l : List Byte}, walkBits e (as ++ bs) = .ok (e', l) →
    ∃ e1 l1 l2, walkBits e as = .ok (e1, l1) ∧ walkBits e1 bs = .ok (e', l2) ∧ l = l1 ++ l2 := by
  induction as with
  | nil => exact fun {e _ l} h => ⟨e, [], l, rfl, h, rfl⟩
  | cons a as ih =>
    intro e e' l h
    by_cases hstop : e.count = e.total
    · rw [walkBits_stop hstop] at h
      cases h
      exact ⟨e, [], [], walkBits_stop hstop _, walkBits_stop hstop _, rfl⟩
    · cases ha : walkBit e a with
      | error f => simp [walkBits, hstop, ha] at h
      | ok x =>
        rw [List.cons_append, walkBits_cons hstop ha] at h
        cases hx : walkBits x.1 (as ++ bs) with
        | error f => rw [hx] at h; cases h
        | ok y =>
          rw [hx] at h
          cases h
          obtain ⟨e1, l1, l2, h1, h2, hl⟩ := ih hx
          refine ⟨e1, x.2 ++ l1, l2, ?_, h2, ?_⟩
          · rw [walkBits_cons hstop ha, h1]; rfl
          · rw [hl, List.append_assoc]

/-- Consecutive DEC_BYTE commands walk the bits of the stream (R220, R223). -/
theorem runPass_decBytes (stream : List Byte) : ∀ {e e' : Engine} {l : List Byte}, e.mode = .dec →
    walkBits e (stream.flatMap byteBits) = .ok (e', l) →
    runPass e (stream.map fun b => plain (.decByte b)) = some (e', l) := by
  induction stream with
  | nil => rintro e _ _ _ ⟨⟩; rfl
  | cons b stream ih =>
    intro e e' l hm h
    obtain ⟨e1, l1, l2, h1, h2, rfl⟩ := walkBits_append _ _ h
    have hm1 : e1.mode = .dec := by rw [walkBits_frame _ h1]; exact hm
    have hrule : ruleDecByte e b = .ok e1 (runsOf l1) := by simp only [ruleDecByte, h1]
    rw [List.map_cons, runPass_cons (c := plain (.decByte b)) (by simp [plain, legalIn, hm]) hrule, ih hm1 h2]
    simp

/-! ## A code's bits (R221, R224) -/

/-- From an INTERNAL entry the bits of a path to a leaf emit the leaf's symbol, and the walk goes on from the root. -/
theorem walkBits_path {e : Engine} {m : NodeIdx} (hm : (nodeAt e.node m).kind = .leaf) (hne : e.count ≠ e.total)
    (more : List Bool) (q : List Bool) : ∀ p : NodeIdx, (nodeAt e.node p).kind = .internal → follow e.node p q = some m →
    walkBits { e with pos := some p } (q ++ more) =
      (walkBits { e with count := e.count + 1, pos := e.root } more).map fun r => (r.1, (nodeAt e.node m).data :: r.2) := by
  induction q with
  | nil => exact fun p hp h => absurd rfl (path_ne_nil hp hm h)
  | cons b q ih =>
    intro p hp h
    have hchild : follow e.node (childOf (nodeAt e.node p) b) q = some m := by simpa only [follow, hp, if_true] using h
    rcases walkBit_cases (e := { e with pos := some p }) b rfl hp with ⟨hleaf, hw⟩ | ⟨hother, hw⟩
    · obtain ⟨rfl, rfl⟩ := follow_leaf hleaf hchild
      exact walkBits_cons (e := { e with pos := some p }) hne hw more
    · have hinternal : (nodeAt e.node (childOf (nodeAt e.node p) b)).kind = .internal := by
        cases q with
        | nil =>
          cases hchild
          exact absurd hm hother
        | cons c q =>
          by_contra hk
          simp [follow, hk] at hchild
      rw [List.cons_append, walkBits_cons (e := { e with pos := some p }) hne hw, ih _ hinternal hchild]
      cases walkBits { e with count := e.count + 1, pos := e.root } more <;> rfl

/-- From the root the bits of a loaded symbol's code emit that symbol (R177, R221). -/
theorem walkBits_code {e : Engine} (h : Built e) (h2 : 2 ≤ e.nsym.toNat) {x : Byte} (hx : e.has x = true)
    (hpos : e.pos = e.root) (hne : e.count ≠ e.total) (more : List Bool) :
    walkBits e ((codeAt e.code x).path ++ more) =
      (walkBits { e with count := e.count + 1 } more).map fun r => (r.1, x :: r.2) := by
  obtain ⟨r, hr, hinternal⟩ := h.root_internal h2
  obtain ⟨m, hm, hmn, rfl⟩ := h.path x r hx hr
  have hstart : ({ e with pos := some r } : Engine) = e := by rw [← hpos.trans hr]
  have hback : ({ e with count := e.count + 1, pos := e.root } : Engine) = { e with count := e.count + 1 } := by rw [← hpos]
  rw [← hback, ← walkBits_path (h.leaves.leaf m hmn).1 hne more _ r hinternal hm, hstart]

/-- From the root the codes of a sequence of loaded symbols emit the sequence; with the last one the walk stops (R223). -/
theorem walkBits_codeStream (bytes : List Byte) (pad : List Bool) : ∀ {e : Engine}, Built e → 2 ≤ e.nsym.toNat →
    (∀ b ∈ bytes, e.has b = true) → e.pos = e.root → e.count.toNat + bytes.length = e.total.toNat →
    ∃ e', e'.mode = e.mode ∧ e'.count = e'.total ∧ walkBits e (codeStream e bytes ++ pad) = .ok (e', bytes) := by
  induction bytes with
  | nil =>
    intro e _ _ _ _ hcount
    have hstop : e.count = e.total := BitVec.eq_of_toNat_eq hcount
    exact ⟨e, rfl, hstop, walkBits_stop hstop _⟩
  | cons b bytes ih =>
    intro e h h2 hhas hpos hcount
    rw [List.length_cons] at hcount
    have hne : e.count ≠ e.total := fun he => by rw [he] at hcount; omega
    have hinc : (e.count + 1).toNat = e.count.toNat + 1 := toNat_count_succ (hcount ▸ e.total.isLt)
    obtain ⟨e', hm, hstop, hrest⟩ := ih (e := { e with count := e.count + 1 }) (h.of_eq rfl rfl rfl rfl rfl rfl) h2
      (fun x hx => hhas x (List.mem_cons_of_mem b hx)) hpos (by show (e.count + 1).toNat + bytes.length = e.total.toNat; omega)
    refine ⟨e', hm, hstop, ?_⟩
    rw [codeStream_cons, List.append_assoc, walkBits_code h h2 (hhas b List.mem_cons_self) hpos hne]
    exact congrArg (Except.map fun r => (r.1, b :: r.2)) hrest

/-! ## A decode pass (R222 to R225, R227) -/

/-- DEC_START for a sequence of loaded symbols, then the walk over its codes: together they emit the sequence, and COUNT reaches
TOTAL. With one symbol loaded the sequence comes at DEC_START (R225), with more it comes from the walk. -/
theorem decStart_walk {e : Engine} (h : Built e) {bytes : List Byte} (hhas : ∀ b ∈ bytes, e.has b = true)
    (hlen : bytes.length < 2 ^ 64) (pad : List Bool) :
    ∃ e1 e2 items l, ruleDecStart e (BitVec.ofNat 64 bytes.length) = .ok e1 items ∧ e1.mode = .dec ∧
      walkBits e1 (codeStream e bytes ++ pad) = .ok (e2, l) ∧ e2.mode = .dec ∧ e2.count = e2.total ∧
      itemsOf items ++ l = bytes := by
  have htotal : (BitVec.ofNat 64 bytes.length).toNat = bytes.length := toNat_ofNat_of_lt hlen
  have hempty : e.nsym = 0 → bytes = [] := fun h0 => List.eq_nil_iff_forall_not_mem.mpr fun b hb =>
    h.nsym_ne_zero (hhas b hb) h0
  by_cases h1 : e.nsym = 1
  · obtain ⟨r, hr, hroot, _⟩ := h.root (by rw [h1]; decide)
    have honly : ∀ b ∈ bytes, b = (nodeAt e.node r).data := fun b hb => by
      obtain ⟨k, hk, hdata⟩ := h.leaves.covered b (hhas b hb)
      rw [h1] at hk hroot
      have hkr : k = r := Fin.ext ((Nat.lt_one_iff.mp hk).trans (Nat.add_right_cancel hroot).symm)
      rw [← hkr, hdata]
    refine ⟨_, _, _, [], ruleDecStart_one h1 hr, rfl, walkBits_stop rfl _, rfl, rfl, ?_⟩
    rw [itemsOf_run, htotal, List.append_nil]
    exact (List.eq_replicate_of_mem honly).symm
  · have hrule := ruleDecStart_open (t := BitVec.ofNat 64 bytes.length) h1 fun h0 => by rw [hempty h0]; rfl
    by_cases h0 : e.nsym = 0
    · obtain rfl := hempty h0
      exact ⟨_, _, [], [], hrule, rfl, walkBits_stop rfl _, rfl, rfl, rfl⟩
    · have h0' : e.nsym.toNat ≠ 0 := fun h => h0 (BitVec.eq_of_toNat_eq h)
      have h1' : e.nsym.toNat ≠ 1 := fun h => h1 (BitVec.eq_of_toNat_eq h)
      obtain ⟨e2, hm, hstop, hwalk⟩ := walkBits_codeStream bytes pad (e := openedDec e (BitVec.ofNat 64 bytes.length) 0)
        (h.of_eq rfl rfl rfl rfl rfl rfl) (by show 2 ≤ e.nsym.toNat; omega) hhas rfl ((Nat.zero_add _).trans htotal.symm)
      exact ⟨_, e2, [], bytes, hrule, rfl, hwalk, hm, hstop, rfl⟩

/-- A decode pass over the stream of a sequence emits the sequence (R223, R224, R225). -/
theorem runPass_decodePass {e : Engine} (hm : e.mode = .built) (h : Built e) {bytes stream : List Byte} {k : Nat}
    (hhas : ∀ b ∈ bytes, e.has b = true) (hlen : bytes.length < 2 ^ 64)
    (hbits : stream.flatMap byteBits = codeStream e bytes ++ List.replicate k false) :
    ∃ e', runPass e (decodePass (BitVec.ofNat 64 bytes.length) stream) = some (e', bytes) := by
  obtain ⟨e1, e2, items, l, hstart, hm1, hwalk, hm2, hstop, hitems⟩ := decStart_walk h hhas hlen (List.replicate k false)
  rw [← hbits] at hwalk
  have hend : ruleDecEnd e2 = .ok { e2 with mode := .built } [] := if_neg (by rw [hstop]; exact Nat.lt_irrefl _)
  have hwalks := runPass_append (runPass_decBytes stream hm1 hwalk)
    (runPass_cons (c := plain .decEnd) (cs := []) (by simp [plain, legalIn, hm2]) hend)
  refine ⟨{ e2 with mode := .built }, ?_⟩
  rw [decodePass, List.cons_append,
    runPass_cons (c := ⟨.decStart, BitVec.ofNat 64 bytes.length⟩) (by simp [legalIn, hm]) hstart, hwalks]
  simp [hitems]

theorem map_fst_frequencies (bytes : List Byte) :
    (frequencies bytes).map Prod.fst = allSymbols.filter fun s => decide (s ∈ bytes) := by
  rw [frequencies, List.map_map]
  exact List.map_id _

end Sys2Proof.Machine

namespace Sys2Proof.Proofs

open Sys2Proof.Machine

/-- Settles O32, by the law `walkBits_keeps` about the walk in a built tree. -/
theorem decByteWalksTheTree : Obligations.DecByteWalksTheTree := by
  intro s v hm hb hc
  obtain ⟨count, pos, l, hw, hcursor, hcount, hlen⟩ := walkBits_keeps (byteBits v) hb hc
  rw [byteBits_length] at hlen
  have hrule : ruleDecByte s.engine v = .ok { s.engine with count := count, pos := pos } (runsOf l) := by
    simp only [ruleDecByte, hw]
  refine ⟨count, pos, runsOf l, exec_of_ok (by simp [legalIn, hm]) hrule, ?_, hcursor, ?_, ?_⟩ <;> rw [itemsOf_runsOf]
  · exact hw
  · exact hcount
  · exact hlen

/-- Settles O34, by induction on the path of the code. -/
theorem codeBitsDecodeToTheirSymbol : Obligations.CodeBitsDecodeToTheirSymbol := by
  intro e x more hb h2 hx hpos hcount
  have hne : e.count ≠ e.total := fun h => by rw [h] at hcount; exact Nat.lt_irrefl _ hcount
  rw [walkBits_code hb h2 hx hpos hne]
  cases walkBits { e with count := e.count + 1 } more <;> rfl

/-- Settles O36: both sides build the same table; the stream's bits are the codes of the sequence, and the walk over the codes
emits the sequence. -/
theorem roundTrip : Obligations.RoundTrip := by
  intro e1 e2 bytes hlen
  obtain ⟨b, _, hbuild, hm, hb, hsyms, _⟩ := runPass_buildTable (frequencies bytes)
    (map_fst_frequencies bytes ▸ nodup_allSymbols.filter _)
  have hhas : ∀ x ∈ bytes, b.has x = true := fun x hx => (hsyms x).mpr (by
    rw [map_fst_frequencies]
    exact List.mem_filter.mpr ⟨mem_allSymbols x, decide_eq_true hx⟩)
  obtain ⟨stream, k, hencode, hbits, _⟩ := runPass_encodePass hm (fun x hx => (hb.coded x).trans (hhas x hx)) hlen
  obtain ⟨e', hdecode⟩ := runPass_decodePass hm hb hhas hlen hbits
  have hrun1 := runPass_append hbuild hencode
  have hrun2 := runPass_append hbuild hdecode
  rw [List.append_assoc] at hrun1 hrun2
  exact ⟨_, e', stream, (runPass_clear e1 _).trans hrun1, (runPass_clear e2 _).trans hrun2⟩

end Sys2Proof.Proofs
end

section
/-! # The file of a header and a stream (spec/44_artifact_format.md rules R250, R253) -/

namespace Sys2Proof.Machine

@[simp] theorem leBytes_length (n : Nat) : ∀ v : Nat, (leBytes n v).length = n := by
  induction n with
  | zero => exact fun v => rfl
  | succ n ih => exact fun v => congrArg (· + 1) (ih (v / 256))

/-- The value of a number's n bytes is the number, where it fits them (R250). -/
theorem leValue_leBytes (n : Nat) : ∀ v : Nat, v < 256 ^ n → leValue (leBytes n v) = v := by
  induction n with
  | zero => intro v h; exact (Nat.lt_one_iff.mp h).symm
  | succ n ih =>
    intro v h
    have hdiv : v / 256 < 256 ^ n := Nat.div_lt_of_lt_mul (by rwa [Nat.pow_succ, Nat.mul_comm] at h)
    rw [leBytes, leValue, ih _ hdiv, BitVec.toNat_ofNat]
    exact Nat.mod_add_div v 256

/-- The eight bytes of a 64-bit field give it back (R250). -/
theorem leValue_leBytes_quad (q : Quad) : BitVec.ofNat 64 (leValue (leBytes 8 q.toNat)) = q := by
  rw [leValue_leBytes 8 q.toNat q.isLt, BitVec.ofNat_toNat, BitVec.setWidth_eq]

/-- An entry's nine bytes (R250). -/
def entryBytes (p : Byte × Quad) : List Byte := p.1 :: leBytes 8 p.2.toNat

theorem length_flatMap_entryBytes (entries : List (Byte × Quad)) : (entries.flatMap entryBytes).length = 9 * entries.length := by
  rw [List.length_flatMap, List.map_congr_left (g := fun _ => 9) fun p _ => by simp [entryBytes]]
  simp [Nat.mul_comm]

/-- The entries' bytes parse to the entries (R250). -/
theorem parseEntries_entryBytes (entries : List (Byte × Quad)) (rest : List Byte) :
    parseEntries entries.length (entries.flatMap entryBytes ++ rest) = entries := by
  induction entries with
  | nil => rfl
  | cons p entries ih =>
    have hbytes : (p :: entries).flatMap entryBytes ++ rest =
        p.1 :: (leBytes 8 p.2.toNat ++ (entries.flatMap entryBytes ++ rest)) := by
      rw [List.flatMap_cons, entryBytes, List.append_assoc, List.cons_append]
    have h8 := leBytes_length 8 p.2.toNat
    rw [hbytes, List.length_cons, parseEntries, List.take_left' h8, List.drop_left' h8, leValue_leBytes_quad, ih]

/-- The file of a header and a stream, field by field (R250). -/
theorem headerBytes_append (h : Header) (stream : List Byte) : headerBytes h ++ stream =
    leBytes 2 h.entries.length ++ (h.entries.flatMap entryBytes ++ (leBytes 8 h.total.toNat ++ stream)) := by
  simp only [headerBytes, List.append_assoc]
  rfl

end Sys2Proof.Machine

namespace Sys2Proof.Proofs

open Sys2Proof.Machine

/-- Settles O37, field by field: the count says where the total and the stream begin. -/
theorem parsingAFileGivesItsHeader : Obligations.ParsingAFileGivesItsHeader := by
  intro h stream hsize
  rw [headerBytes_append]
  have h2 := leBytes_length 2 h.entries.length
  have h8 := leBytes_length 8 h.total.toNat
  have hentries := length_flatMap_entryBytes h.entries
  have hcount : leValue (leBytes 2 h.entries.length) = h.entries.length :=
    leValue_leBytes 2 _ (hsize.trans_lt (by decide))
  have htotal : ∀ tail : List Byte, (leBytes 2 h.entries.length ++ (h.entries.flatMap entryBytes ++ tail)).drop
      (2 + 9 * h.entries.length) = tail := fun tail => by
    rw [← List.drop_drop, List.drop_left' h2, List.drop_left' hentries]
  have hstream : (leBytes 2 h.entries.length ++ (h.entries.flatMap entryBytes ++ (leBytes 8 h.total.toNat ++ stream))).drop
      (2 + 9 * h.entries.length + 8) = stream := by
    rw [← List.drop_drop, htotal, List.drop_left' h8]
  have hlen : (leBytes 2 h.entries.length ++ (h.entries.flatMap entryBytes ++ (leBytes 8 h.total.toNat ++ stream))).length =
      2 + 9 * h.entries.length + 8 + stream.length := by
    simp only [List.length_append, h2, h8, hentries]
    omega
  simp only [parseFile, List.take_left' h2, List.drop_left' h2, List.take_left' h8, hcount, hlen, htotal, hstream,
    parseEntries_entryBytes, leValue_leBytes_quad]
  rw [if_neg (by omega), if_neg (by omega), if_neg (by omega)]

end Sys2Proof.Proofs
end

section
/-! # Steps: E-PUSH, a whole command, resets and accesses that do not act

(spec/40_control.md rules R149, R150; spec/70_reset_and_hazards.md rules R300, R301, R311; spec/20_memory.md rule R86). -/

namespace Sys2Proof.Machine

/-- The engine's move with an item left is E-PUSH of the first one (R149). -/
theorem engineStep_push {s : State} {p : Pending} {b : Byte} {l : List Byte} (hr : s.rst = false) (hp : s.pending = some p)
    (hi : itemsOf p.items = b :: l) : ∃ items, itemsOf items = l ∧ engineStep s = .next (enginePush p b items s) := by
  obtain ⟨items, hpop, hitems⟩ := (popItem_of_items p.items).2 b l hi
  exact ⟨items, hitems, by simp only [engineStep, hr, hp, hpop, Bool.false_eq_true, if_false]⟩

/-- With nothing scheduled a step is the engine's move (R91). -/
theorem step_of_idle {s : State} (h : s.agenda = []) : step s = engineStep s := by simp only [step, h]

theorem run_succ {s t : State} (h : step s = .next t) (k : Nat) :
    Host.Core.run Sys2Proof.core (k + 1) s = Host.Core.run Sys2Proof.core k t := by
  have hcore : Sys2Proof.core.step s = .next t := h
  simp only [Host.Core.run, hcore]

/-- What E-DONE of a command other than CLEAR leaves once its items are in OUT (R149, R150). -/
def completed (s : State) (e : Engine) (items : List Byte) : State :=
  { s with engine := e, pending := none, cur := none, busy := false, intDone := true, out := s.out ++ items }

/-- With room in OUT for the items left, they are pushed one a step, and the step after the last is E-DONE (R149, R150). -/
theorem run_pushes (l : List Byte) : ∀ {s : State} {p : Pending}, s.agenda = [] → s.rst = false → runsClear s = false →
    s.pending = some p → itemsOf p.items = l → s.out.length + l.length ≤ s.params.outDepth →
    Host.Core.run Sys2Proof.core (l.length + 1) s = .next (completed s p.next l) := by
  induction l with
  | nil =>
    intro s p ha hr hclear hp hi _
    rw [List.length_nil, run_succ ((step_of_idle ha).trans (engineStep_done hr hp hi))]
    simp [engineDone, completed, hclear, Host.Core.run]
  | cons b l ih =>
    intro s p ha hr hclear hp hi hroom
    rw [List.length_cons] at hroom
    obtain ⟨items, hitems, hstep⟩ := engineStep_push hr hp hi
    rw [enginePush_room p b items s (by omega)] at hstep
    have hrest := ih (s := { s with out := s.out ++ [b], pending := some { p with items := items } })
      (p := { p with items := items }) ha hr hclear rfl hitems (by simp; omega)
    rw [List.length_cons, run_succ ((step_of_idle ha).trans hstep), hrest]
    simp [completed]

/-- A word that decodes to another command is not CLEAR's. -/
theorem runsClear_of_ne {s : State} {c : Command} {i : Instr} (hc : s.cur = some c) (hd : decode c.word = .ok i) (hi : i ≠ .clear) :
    runsClear s = false := by
  refine Bool.eq_false_iff.mpr fun h => hi ?_
  rw [(runsClear_iff hc).mp h, ← encode_clear, decode_encode] at hd
  exact (Except.ok.inj hd).symm

/-- A read that does not act (R86). -/
theorem hostRead_of_not_acts {off : BitVec 8} {size : Nat} (s : State) (h : size ≠ 4 ∨ off.toNat % 4 ≠ 0) :
    hostRead off size s = { s with rdata := 0 } :=
  if_neg fun ha => by
    obtain ⟨h4, halign⟩ := (acts_iff off size).mp ha
    exact h.elim (· h4) (· halign)

/-- A write that does not act (R86). -/
theorem hostWrite_of_not_acts {off : BitVec 8} {size : Nat} (v : Word) (s : State) (h : size ≠ 4 ∨ off.toNat % 4 ≠ 0) :
    hostWrite off size v s = s :=
  if_neg fun ha => by
    obtain ⟨h4, halign⟩ := (acts_iff off size).mp ha
    exact h.elim (· h4) (· halign)

end Sys2Proof.Machine

namespace Sys2Proof.Proofs

open Sys2Proof.Machine

/-- Settles O39: the item popped is the first one, and a full OUT holds the engine. -/
theorem pushMovesOneItemOrHolds : Obligations.PushMovesOneItemOrHolds := by
  intro s rest p b l hm hr hp hi
  obtain ⟨items, hitems, hstep⟩ := engineStep_push (s := { s with agenda := rest }) hr hp hi
  rw [← step_of_engineMoves hm] at hstep
  exact ⟨fun hroom => ⟨items, hitems, hstep.trans (congrArg _ (enginePush_room p b items _ hroom))⟩,
    fun hfull => hstep.trans (congrArg _ (enginePush_hold p b items _ hfull))⟩

/-- Settles O41: one step of E-EXEC, then the pushes and E-DONE, by induction on the items. -/
theorem commandCompletesInTwoPlusItemsSteps : Obligations.CommandCompletesInTwoPlusItemsSteps := by
  intro s c i e' items ha hc hd hi hx hroom
  have hexec : step s = .next { s with pending := some ⟨e', items⟩ } := by
    rw [step_exec (.inl ⟨ha, rfl⟩) hc, ← ha, engineExec_eq c s hc.cur, hd]
    simp only [hx, settle]
  rw [Nat.add_comm 2, run_succ hexec]
  exact run_pushes _ (s := { s with pending := some ⟨e', items⟩ }) ha hc.rst (runsClear_of_ne (i := i) hc.cur hd hi) rfl rfl hroom

/-- Settles O45, by the accesses in the window. -/
theorem otherAccessesDoNotAct : Obligations.OtherAccessesDoNotAct := by
  intro s rest off size v hr h
  refine ⟨fun hag => ?_, fun hag => ?_⟩
  · rw [step_read hr hag, hostRead_of_not_acts _ h]
  · rw [step_write hr hag, hostWrite_of_not_acts v _ h]

/-- Settles O52: CTRL stands at 0x08, and its write is SOFT_RESET by bit 0. -/
theorem softResetResetsEveryElement : Obligations.SoftResetResetsEveryElement := by
  refine ⟨fun _ => rfl, fun s rest v hr hag => ?_⟩
  have hstep : step s = .next (writeCtrl v { s with agenda := rest }) := step_write_aligned (off := 0x08) hr rfl hag
  refine ⟨fun hv => ?_, fun hv => ?_⟩
  · rw [hstep, writeCtrl, if_pos hv]
    simp only [resetBlock, hr]
    rfl
  · rw [hstep, writeCtrl, if_neg (ne_true_of_eq_false hv)]

/-- Settles O53: the `rst` event drives the input; while it is asserted an access is dropped and the engine waits. -/
theorem rstHoldsTheBlockInReset : Obligations.RstHoldsTheBlockInReset := by
  intro s rest
  refine ⟨fun hag => by simp only [step, hag]; rfl, fun hag => by simp only [step, hag]; rfl,
    fun hr => ⟨fun a hag => ?_, fun hm => ?_⟩⟩
  · simp only [step, hag, hostAccess, hr, if_true]
  · simp only [step_of_engineMoves hm, engineStep, hr, if_true]

end Sys2Proof.Proofs
end

section
/-! # The registers' fields, at reset, and `irq` (spec/10_state.md rules R33 to R39, R56; spec/60_exceptions.md rule R280) -/

namespace Sys2Proof.Machine

/-- The one-bit fields of STATUS (R33, R34). -/
theorem statusWord_bits (s : State) : (statusWord s).getLsbD 0 = s.busy ∧ (statusWord s).getLsbD 4 = s.overrun ∧
    (statusWord s).getLsbD 5 = decDone s.engine := by
  unfold statusWord
  simp only [BitVec.getLsbD_append]
  simp

/-- The wider fields of STATUS, the reserved ones 0 (R33, R34). -/
theorem statusWord_fields (s : State) :
    (statusWord s).extractLsb' 1 3 = s.engine.mode.bits ∧ (statusWord s).extractLsb' 6 2 = 0 ∧
    (statusWord s).extractLsb' 8 4 = s.engine.errCode.bits ∧ (statusWord s).extractLsb' 12 4 = 0 ∧
    (statusWord s).extractLsb' 16 9 = s.engine.nsym ∧ (statusWord s).extractLsb' 25 7 = 0 := by
  unfold statusWord
  simp (disch := decide) only [BitVec.extractLsb'_append_eq_of_le, BitVec.extractLsb'_append_eq_of_add_le,
    BitVec.extractLsb'_eq_self, Nat.reduceSub, Nat.sub_self]
  decide

/-- CONFIG as a number: OUT_DEPTH fits its 16 bits (R5, R35). -/
theorem toNat_configWord (p : Params) : (configWord p).toNat = 0x08 * 2 ^ 24 + p.outDepth * 2 ^ 8 + 0xFF := by
  have hfits : p.outDepth < 2 ^ 16 := Nat.succ_lt_succ p.outDepthLess1.isLt
  simp only [configWord, BitVec.toNat_append, toNat_ofNat_of_lt hfits]
  rw [← Nat.shiftLeft_add_eq_or_of_lt hfits, ← Nat.shiftLeft_add_eq_or_of_lt (by decide)]
  simp only [Nat.shiftLeft_eq, BitVec.toNat_ofNat]
  omega

/-- ACC stands below ACC_CNT, and nothing above (R38). -/
theorem accState_eq (e : Engine) : accState e = ((e.accCnt.setWidth 32) <<< 8) ||| e.acc.setWidth 32 := by
  ext i hi
  rw [← BitVec.getLsbD_eq_getElem, ← BitVec.getLsbD_eq_getElem]
  unfold accState
  simp only [BitVec.getLsbD_append]
  by_cases h8 : i < 8
  · simp [h8, hi]
  · have hacc : e.acc.getLsbD i = false := BitVec.getLsbD_of_ge e.acc i (Nat.not_lt.mp h8)
    by_cases h3 : i - 8 < 3
    · simp [h8, h3, hi, hacc]
    · have hcnt : e.accCnt.getLsbD (i - 8) = false := BitVec.getLsbD_of_ge e.accCnt (i - 8) (Nat.not_lt.mp h3)
      simp [h8, h3, hacc, hcnt]

theorem codeLenWord_valid (e : Engine) : (codeLenWord e).getLsbD 31 = e.qvalid := by
  unfold codeLenWord
  simp only [BitVec.getLsbD_append]
  simp

/-- The wider fields of CODE_LEN, the reserved ones 0 (R39). -/
theorem codeLenWord_fields (e : Engine) :
    (codeLenWord e).extractLsb' 24 7 = 0 ∧ (codeLenWord e).extractLsb' 16 8 = e.qsym ∧
    (codeLenWord e).extractLsb' 9 7 = 0 ∧ (codeLenWord e).extractLsb' 0 9 = e.qlen := by
  unfold codeLenWord
  simp (disch := decide) only [BitVec.extractLsb'_append_eq_of_le, BitVec.extractLsb'_append_eq_of_add_le,
    BitVec.extractLsb'_eq_self, Nat.reduceSub, Nat.sub_self]
  decide

/-- The bits of INT_PEND (R36). -/
theorem intPend_bits (s : State) : (intPend s).getLsbD 0 = s.intDone ∧ (intPend s).getLsbD 1 = s.intErr ∧
    (intPend s).getLsbD 2 = outNonempty s := by
  unfold intPend
  simp only [BitVec.getLsbD_append]
  simp

end Sys2Proof.Machine

namespace Sys2Proof.Proofs

open Sys2Proof.Machine

/-- Settles O54, register by register. -/
theorem registersAfterReset : Obligations.RegistersAfterReset := by
  intro r
  refine ⟨rfl, ?_⟩
  cases r with
  | codeBits k => revert k; decide
  | _ => rfl

/-- Settles O55: the three bits of INT_PEND are the three flags. -/
theorem irqIsPendingAndEnabled : Obligations.IrqIsPendingAndEnabled := by
  intro s
  obtain ⟨hdone, herr, hout⟩ := intPend_bits s
  simp only [irq, Bool.or_eq_true, Bool.and_eq_true]
  constructor
  · rintro ((h | h) | h)
    · exact ⟨0, by decide, hdone.trans h.1, h.2⟩
    · exact ⟨1, by decide, herr.trans h.1, h.2⟩
    · exact ⟨2, by decide, hout.trans h.1, h.2⟩
  · rintro ⟨k, hk, hpend, hen⟩
    match k, hk with
    | 0, _ => exact .inl (.inl ⟨hdone.symm.trans hpend, hen⟩)
    | 1, _ => exact .inl (.inr ⟨herr.symm.trans hpend, hen⟩)
    | 2, _ => exact .inr ⟨hout.symm.trans hpend, hen⟩

/-- Settles O47, register by register. -/
theorem computedRegisterFields : Obligations.ComputedRegisterFields := by
  intro s
  obtain ⟨hbusy, hover, hdone⟩ := statusWord_bits s
  obtain ⟨hmode, h6, hcode, h12, hnsym, h25⟩ := statusWord_fields s
  obtain ⟨h24, hqsym, h9, hqlen⟩ := codeLenWord_fields s.engine
  refine ⟨hbusy, hmode, hover, hdone.trans ?_, h6, hcode, h12, hnsym, h25, toNat_configWord s.params, accState_eq s.engine,
    codeLenWord_valid s.engine, h24, hqsym, h9, hqlen, fun k j hj => ?_⟩
  · rw [decDone, beq_eq_decide, beq_eq_decide]
  · simp [codeBitsWord, hj]

end Sys2Proof.Proofs
end
